-- ==== Sys2Proof/Word.lean ====
section
/-! DEFINITION. The word types of MD5-CORE (R7, R9), the four-word and 64-byte operands of the
Compressor, and the two kinds of port transaction the host can issue (R70, R72). -/

namespace Sys2Proof

/-- An 8-bit unsigned value (R9). -/
abbrev Byte := BitVec 8

/-- A 32-bit unsigned value (R9); `+` on it wraps modulo 2^32 (R10). -/
abbrev Word := BitVec 32

/-- A 64-bit unsigned value: LEN and the length field (R24, R148); `+` on it is R10's `+64`. -/
abbrev Word64 := BitVec 64

/-- Four words: the chaining state A, B, C, D (R21), and the working variables a, b, c, d (R27). -/
structure Quad where
  a : Word
  b : Word
  c : Word
  d : Word
  deriving DecidableEq, Repr

/-- A 64-byte block, byte 0 first (R7, R22). -/
abbrev Block := Vector Byte 64

/-- One transaction on one of the two ports: a 32-bit command word (R70), or the two operand vectors
of a COMPRESS (R72). -/
inductive Transaction where
  | command (w : Word)
  | compressor (cvIn : BitVec 128) (blkIn : BitVec 512)
  deriving DecidableEq, Repr

end Sys2Proof
end

