-- ==== Sys2Proof/Syntax.lean ====
section
/-! DEFINITION. The operations of MD5-CORE: one constructor for each row of spec/opcode_table.json.
Operands are the decoded ones; the encodings are in Decode.lean. -/

namespace Sys2Proof

/-- The four operations (R71, R72). -/
inductive Instr where
  /-- INIT, the source's `new()` (R141). -/
  | init
  /-- ABSORB DATA, one byte of the source's `update(bytes)` (R142). -/
  | absorb (data : Byte)
  /-- FINALIZE, the source's `finalize()` (R145). -/
  | finalize
  /-- COMPRESS cv, blk on the Compressor port (R112). -/
  | compress (cv : Quad) (blk : Block)
  deriving DecidableEq, Repr

end Sys2Proof
end

