-- ==== Sys2Proof/WellFormed.lean ====
section
/-! DEFINITION. The operand checks of R82, on operands as they are spelled (numbers and lists), and
the same checks asked of an instruction. The operand types of `Instr` are exactly as wide as the
encodings of R72 and R74, so every `Instr` meets them; the checks refuse only spellings. -/

namespace Sys2Proof

/-- R82: an `imm8` is in 0..255. -/
def imm8Ok (n : Nat) : Bool := decide (n < 256)

/-- R81, R82: a byte string or byte list holds bytes. -/
def bytesOk (s : List Nat) : Bool := s.all imm8Ok

/-- R82: a `blk` is 64 bytes long. -/
def blkOk (s : List Nat) : Bool := s.length == 64 && bytesOk s

/-- R81, R82: a `cv` is four words, each of 32 bits. -/
def cvOk (ws : List Nat) : Bool := ws.length == 4 && ws.all fun w => decide (w < 2 ^ 32)

/-- The checks of R82 asked of an instruction's operands. -/
def Instr.wellFormed : Instr → Bool
  | .init => true
  | .absorb data => imm8Ok data.toNat
  | .finalize => true
  | .compress cv blk =>
    cvOk [cv.a.toNat, cv.b.toNat, cv.c.toNat, cv.d.toNat] && blkOk (blk.toList.map (·.toNat))

end Sys2Proof
end

