-- ==== Sys2Proof/Decode.lean ====
section
/-! DEFINITION. Port packings (R72), the decoder of command words and of port transactions (R76, R77),
the encoder (R74, R80), and `decodeTableWord`, the decoder read through the opcode table's bit
numbering. There is no memory and no fetch, so a command word has no byte order (R70). -/

namespace Sys2Proof

/-! ## The Compressor port's vectors (R72) -/

/-- R72: `cv[32j+31:32j] = word j`, so word 3 is the high part. -/
def packCv (q : Quad) : BitVec 128 := q.d ++ q.c ++ q.b ++ q.a

/-- R72 read the other way: word j is `v[32j+31:32j]`. -/
def unpackCv (v : BitVec 128) : Quad where
  a := v.extractLsb' 0 32
  b := v.extractLsb' 32 32
  c := v.extractLsb' 64 32
  d := v.extractLsb' 96 32

/-- The number whose base-256 digits, least significant first, are the bytes `bs`. -/
def packBytes : List Byte → Nat
  | [] => 0
  | b :: bs => b.toNat + 256 * packBytes bs

/-- R72: `blk[8k+7:8k] = BLK[k]`. -/
def packBlk (blk : Block) : BitVec 512 := BitVec.ofNat 512 (packBytes blk.toList)

/-- R72 read the other way: BLK[k] is `v[8k+7:8k]`. -/
def unpackBlk (v : BitVec 512) : Block := Vector.ofFn fun k => v.extractLsb' (8 * k.val) 8

/-! ## Decoding -/

/-- Why a command word is ILLEGAL (R77). One response status covers both (R181). -/
inductive IllegalWord where
  /-- OP is 0x0 or 0x4 to 0xF (R71). -/
  | reservedOp (op : BitVec 4)
  /-- OP is 0x1, 0x2 or 0x3 and a "must be 0" bit is 1 (R74). -/
  | mustBeZero (op : BitVec 4)
  deriving DecidableEq, Repr

/-- The decoder's answer: an operation, or ILLEGAL with its reason (R76). -/
inductive Decoded where
  | instr (i : Instr)
  | illegal (why : IllegalWord)
  deriving DecidableEq, Repr

/-- The OP field `w[31:28]` (R70). -/
def opField (w : Word) : BitVec 4 := w.extractLsb' 28 4

/-- The reason a word that is no command is ILLEGAL (R77). -/
def illegalReason (w : Word) : IllegalWord :=
  if opField w = 1 ∨ opField w = 2 ∨ opField w = 3 then .mustBeZero (opField w)
  else .reservedOp (opField w)

/-- R76, in the order the rule writes its tests. -/
def decodeCommand (w : Word) : Decoded :=
  if w = 0x10000000#32 then .instr .init
  else if w.extractLsb' 8 24 = 0x200000#24 then .instr (.absorb (w.extractLsb' 0 8))
  else if w = 0x30000000#32 then .instr .finalize
  else .illegal (illegalReason w)

/-- Decoding a transaction of either port. The Compressor port has no word to be illegal (R183). -/
def decode : Transaction → Decoded
  | .command w => decodeCommand w
  | .compressor cvIn blkIn => .instr (.compress (unpackCv cvIn) (unpackBlk blkIn))

/-! ## Encoding -/

/-- The transaction that issues an instruction (R74, R80, R72). -/
def encode : Instr → Transaction
  | .init => .command 0x10000000#32
  | .absorb data => .command (0x20000000#32 ||| data.setWidth 32)
  | .finalize => .command 0x30000000#32
  | .compress cv blk => .compressor (packCv cv) (packBlk blk)

/-! ## The opcode table's numbering -/

/-- The transaction whose bits are the low `nbits` bits of `w`. A command word has 32 bits (R70);
a Compressor transaction has 640, cv_in in bits 127..0 and blk_in in bits 639..128, the order R72
lists them in. The table gives COMPRESS no bits, so `nbits = 0` is a COMPRESS of zero operands.
DESIGN CHOICE log 7. -/
def tableTransaction (nbits w : Nat) : Option Transaction :=
  if 0 < nbits ∧ nbits ≤ 32 then some (.command (BitVec.ofNat 32 (w % 2 ^ nbits)))
  else if nbits ≤ 640 then
    some (.compressor (BitVec.ofNat 128 (w % 2 ^ nbits)) (BitVec.ofNat 512 ((w % 2 ^ nbits) / 2 ^ 128)))
  else none

/-- The instruction the decoder reads from a row of spec/opcode_table.json. -/
def decodeTableWord (nbits w : Nat) : Option Instr :=
  match (tableTransaction nbits w).map decode with
  | some (.instr i) => some i
  | _ => none

end Sys2Proof
end

