-- ==== Sys2Proof/Config.lean ====
section
/-! DEFINITION. What the spec leaves to an implementation (R8) and the free values it leaves open
(R210, R212). Every one is an opaque constant with no body: nothing can be proved of its value. -/

namespace Sys2Proof.Config

/-- `N_UNITS - 1` (R8: N_UNITS is at least 1). DESIGN CHOICE log 8. -/
opaque extraUnits : Nat

/-- `N_UNITS`, how many independent units exist (R8). -/
def nUnits : Nat := extraUnits + 1

/-- `LAT_COMPRESS` in clock cycles, of `cv`, `blk`, H, BUF, BUFLEN, LEN and whether FSM is FINALIZED. R219
lets it depend on the data and the buffer state; that it may depend on the rest of the unit's state too, and
on nothing else, is the model's DESIGN CHOICE (log 9), as for the three below. -/
opaque latCompress : Quad → Block → Quad → Block → BitVec 6 → Word64 → Bool → Nat

/-- `LAT_INIT`, of H, BUF, BUFLEN, LEN and whether FSM is FINALIZED (R219). Log 9. -/
opaque latInit : Quad → Block → BitVec 6 → Word64 → Bool → Nat

/-- `LAT_ABSORB`, of the data byte, H, BUF, BUFLEN, LEN and whether FSM is FINALIZED (R219). Log 9. -/
opaque latAbsorb : Byte → Quad → Block → BitVec 6 → Word64 → Bool → Nat

/-- `LAT_FINALIZE`, of H, BUF, BUFLEN, LEN and whether FSM is FINALIZED (R219). Log 9. -/
opaque latFinalize : Quad → Block → BitVec 6 → Word64 → Bool → Nat

/-- Free value: BUF cell `k` of unit `u` after its `n`-th draw, taken as `freeBufCell u n k` (R210: "BUF's
contents are unspecified"; R212). The unit's number is an argument, so nothing says whether two units'
values coincide. DESIGN CHOICE logs 4 and 5. -/
opaque freeBufCell : Nat → Nat → Nat → Byte

/-- Free value: the chaining state of unit `u` at its `n`-th draw (R212, before the first reset). Log 5. -/
opaque freeChain : Nat → Nat → Word × Word × Word × Word

/-- Free value: BUFLEN of unit `u` at its `n`-th draw (R212). Log 5. -/
opaque freeBufLen : Nat → Nat → BitVec 6

/-- Free value: LEN of unit `u` at its `n`-th draw (R212). Log 5. -/
opaque freeLen : Nat → Nat → Word64

/-- Free value: whether FSM of unit `u` is FINALIZED at its `n`-th draw (R212). Log 5. -/
opaque freeFinalized : Nat → Nat → Bool

end Sys2Proof.Config
end

