-- ==== Sys2Proof/Machine/Tables.lean ====
section
/-! DEFINITION. The read-only constant tables IV (R29), K (R108) and S (R109). They are literals, as
R114 asks, and no operation writes them (R28). The spec takes their values from general knowledge
and corroborates them by its two digests; log 11. -/

namespace Sys2Proof.Machine

/-- IV (R29). -/
def iv : Quad := ⟨0x67452301#32, 0xefcdab89#32, 0x98badcfe#32, 0x10325476#32⟩

/-- K[0..15] (R108). -/
def kRound1 : List Word := [
  0xd76aa478#32, 0xe8c7b756#32, 0x242070db#32, 0xc1bdceee#32,
  0xf57c0faf#32, 0x4787c62a#32, 0xa8304613#32, 0xfd469501#32,
  0x698098d8#32, 0x8b44f7af#32, 0xffff5bb1#32, 0x895cd7be#32,
  0x6b901122#32, 0xfd987193#32, 0xa679438e#32, 0x49b40821#32]

/-- K[16..31] (R108). -/
def kRound2 : List Word := [
  0xf61e2562#32, 0xc040b340#32, 0x265e5a51#32, 0xe9b6c7aa#32,
  0xd62f105d#32, 0x02441453#32, 0xd8a1e681#32, 0xe7d3fbc8#32,
  0x21e1cde6#32, 0xc33707d6#32, 0xf4d50d87#32, 0x455a14ed#32,
  0xa9e3e905#32, 0xfcefa3f8#32, 0x676f02d9#32, 0x8d2a4c8a#32]

/-- K[32..47] (R108). -/
def kRound3 : List Word := [
  0xfffa3942#32, 0x8771f681#32, 0x6d9d6122#32, 0xfde5380c#32,
  0xa4beea44#32, 0x4bdecfa9#32, 0xf6bb4b60#32, 0xbebfbc70#32,
  0x289b7ec6#32, 0xeaa127fa#32, 0xd4ef3085#32, 0x04881d05#32,
  0xd9d4d039#32, 0xe6db99e5#32, 0x1fa27cf8#32, 0xc4ac5665#32]

/-- K[48..63] (R108). -/
def kRound4 : List Word := [
  0xf4292244#32, 0x432aff97#32, 0xab9423a7#32, 0xfc93a039#32,
  0x655b59c3#32, 0x8f0ccc92#32, 0xffeff47d#32, 0x85845dd1#32,
  0x6fa87e4f#32, 0xfe2ce6e0#32, 0xa3014314#32, 0x4e0811a1#32,
  0xf7537e82#32, 0xbd3af235#32, 0x2ad7d2bb#32, 0xeb86d391#32]

/-- K[0..63] (R108). -/
def kTable : List Word := kRound1 ++ kRound2 ++ kRound3 ++ kRound4

/-- K[i]. Every use has i in 0..63 (R113); beyond the table it is 0, which nothing reads. -/
def kConst (i : Nat) : Word := kTable.getD i 0

/-- SR (R109): the four rotation amounts of round r, 0-based (beyond round 3, which nothing reads, those of round 3). -/
def rotationRow (r : Nat) : List Nat :=
  match r with
  | 0 => [7, 12, 17, 22]
  | 1 => [5, 9, 14, 20]
  | 2 => [4, 11, 16, 23]
  | _ => [6, 10, 15, 21]

/-- S[i] = SR[i div 16][i mod 4] (R109, R106). -/
def rotationAmount (i : Nat) : Nat := (rotationRow (i / 16)).getD (i % 4) 0

end Sys2Proof.Machine
end

