-- ==== Sys2Proof/Machine/State.lean ====
section
/-! DEFINITION. The state of one MD5-CORE unit (R20), what the host sees of it (R73, R220), what the
host can do to it (R215), the machine's state, its reset (R210), and the reasons a step can stop. -/

namespace Sys2Proof.Machine

/-- FSM, the Streaming unit's two-state machine (R25). Its bit encoding is internal (R25). -/
inductive Fsm where
  | accepting
  | finalized
  deriving DecidableEq, Repr

/-- The Streaming unit's architectural state, exactly that of R20. -/
structure StreamingUnit where
  /-- `H[0..3]`, the chaining state (R21). -/
  h : Quad
  /-- `BUF[0..63]`; cells at and beyond BUFLEN are stale and no rule reads them (R22). -/
  buf : Block
  /-- `BUFLEN`, the number of pending bytes, 0..63 (R23). -/
  bufLen : BitVec 6
  /-- `LEN`, the bytes absorbed modulo 2^64 (R24). -/
  len : Word64
  /-- `FSM` (R25). -/
  fsm : Fsm
  deriving DecidableEq, Repr

/-- The status of a command's response (R180). Code 3 is never produced, so it is no constructor. -/
inductive Status where
  | ok
  | misuse
  | illegal
  deriving DecidableEq, Repr

/-- What an operation returns to the host: a command's RSP, whose digest is present only for an
accepted FINALIZE (R73), or a COMPRESS's `cv_out` (R72). -/
inductive Response where
  | rsp (status : Status) (digest : Option (BitVec 128))
  | cvOut (v : BitVec 128)
  deriving DecidableEq, Repr

/-- What the host can do to the unit (R215), one event at a time (R216). -/
inductive HostEvent where
  /-- Issue an operation and wait for its response (R57). -/
  | operation (t : Transaction)
  /-- Apply reset between operations (R210). -/
  | reset
  /-- Apply reset while the operation `t` is in progress (R213). -/
  | resetDuring (t : Transaction)
  /-- Power the unit on; it awaits its first reset (R212). -/
  | powerOn
  deriving DecidableEq, Repr

/-- One unit and its host. `unit` is the spec's; the other five fields are the model's own
(logs 1, 2, 4, 5, 8). -/
structure State where
  /-- The Streaming unit (R20). -/
  unit : StreamingUnit
  /-- Whether reset has been applied since power-on (R212). Log 5. -/
  resetDone : Bool
  /-- What the host will do next, in issue order (R57). Log 1. -/
  pending : List HostEvent
  /-- What the host has been answered, oldest first: the observation of R220. Log 2. -/
  responses : List Response
  /-- How many groups of free values this unit has drawn. Log 4. -/
  draws : Nat
  /-- Which unit of a platform this is. No operation and no response depends on it (R191: no identifier
  visible to the host); it only keeps one unit's free values apart from another's. Logs 4 and 8. -/
  unitNo : Nat
  deriving DecidableEq, Repr

/-- Why the machine stops with a fault. No operation of the unit faults (R184). -/
inductive Fault where
  /-- Raised by `readStatus`, the host's reading of a status code, on code 3, which no unit produces
  (R180; 93_implementation_defined.md U9). Safe: the model stops. -/
  | malformedStatus (code : BitVec 2)
  deriving DecidableEq, Repr

/-- Why a step has no meaning. -/
inductive Refusal where
  /-- Raised by an arm of `exec` whose instruction has no meaning yet; no arm raises it. Safe. -/
  | notModelled (mnemonic : String)
  /-- Raised by the step when the host issues an operation before the first reset after power-on
  ("No operation is defined on the unit until reset has been applied once", R212; U3). Safe. -/
  | operationBeforeReset
  /-- Raised by `Platform.stepUnit` for a unit number that does not exist (R8). Safe. -/
  | noSuchUnit (u : Nat)
  deriving DecidableEq, Repr

/-! ## Named updates -/

/-- The unit with another chaining state. -/
def StreamingUnit.setH (u : StreamingUnit) (h : Quad) : StreamingUnit := { u with h := h }
/-- The unit with another buffer. -/
def StreamingUnit.setBuf (u : StreamingUnit) (b : Block) : StreamingUnit := { u with buf := b }
/-- The unit with another BUFLEN. -/
def StreamingUnit.setBufLen (u : StreamingUnit) (n : BitVec 6) : StreamingUnit := { u with bufLen := n }
/-- The unit with another LEN. -/
def StreamingUnit.setLen (u : StreamingUnit) (n : Word64) : StreamingUnit := { u with len := n }
/-- The unit with another FSM state. -/
def StreamingUnit.setFsm (u : StreamingUnit) (f : Fsm) : StreamingUnit := { u with fsm := f }

/-- The machine with another unit state. -/
def State.setUnit (s : State) (u : StreamingUnit) : State := { s with unit := u }
/-- The machine with reset done, or awaited. -/
def State.setResetDone (s : State) (b : Bool) : State := { s with resetDone := b }
/-- The machine with other host events to come. -/
def State.setPending (s : State) (p : List HostEvent) : State := { s with pending := p }
/-- The machine with one more response returned to the host. -/
def State.addResponse (s : State) (r : Response) : State := { s with responses := s.responses ++ [r] }
/-- The machine with one more group of free values drawn. -/
def State.countDraw (s : State) : State := { s with draws := s.draws + 1 }
/-- The machine as another unit of its platform. -/
def State.setUnitNo (s : State) (n : Nat) : State := { s with unitNo := n }

/-! ## Reset -/

/-- The Streaming unit right after reset (R20, R210). BUF is unspecified there; zero bytes are this
model's DESIGN CHOICE (log 3, unsafe). -/
def StreamingUnit.reset : StreamingUnit where
  h := iv
  buf := Vector.replicate 64 0#8
  bufLen := 0#6
  len := 0#64
  fsm := .accepting

/-- The machine right after reset, with nothing issued and nothing answered (R210, R220). -/
def State.reset : State where
  unit := StreamingUnit.reset
  resetDone := true
  pending := []
  responses := []
  draws := 0
  unitNo := 0

end Sys2Proof.Machine
end

