-- ==== Sys2Proof/Machine/Operands.lean ====
section
/-! DEFINITION. Operand assembly and byte order (R50, R51, R52, R53, R73, R75): every conversion
between bytes and words, each little-endian. -/

namespace Sys2Proof.Machine

/-- `byte(v, k) = v[8k+7:8k]` (R11). -/
def byteOf {n : Nat} (v : BitVec n) (k : Nat) : Byte := v.extractLsb' (8 * k) 8

/-- `LE32(b0, b1, b2, b3) = {b3, b2, b1, b0}` (R11, R50). -/
def le32 (b0 b1 b2 b3 : Byte) : Word := b3 ++ b2 ++ b1 ++ b0

/-- BLK[k]; every use has k in 0..63 (beyond them it is 0, which nothing reads). -/
def blockByte (blk : Block) (k : Nat) : Byte := blk.toList.getD k 0#8

/-- Message word M[j], j in 0..15 (R50). -/
def messageWord (blk : Block) (j : Nat) : Word :=
  le32 (blockByte blk (4 * j)) (blockByte blk (4 * j + 1)) (blockByte blk (4 * j + 2)) (blockByte blk (4 * j + 3))

/-- L = (LEN * 8) mod 2^64 (R148). -/
def lengthField (len : Word64) : Word64 := len * 8#64

/-- The eight bytes of a 64-bit value, least significant first (R51; R149's LE64). -/
def le64 (v : Word64) : List Byte := (List.range 8).map (byteOf v)

/-- `H[j]`, j in 0..3 (R21). -/
def quadWord (q : Quad) (j : Nat) : Word :=
  match j with
  | 0 => q.a
  | 1 => q.b
  | 2 => q.c
  | _ => q.d

/-- Digest byte k is `byte(H[k div 4], k mod 4)`, k in 0..15 (R52). -/
def digestByte (h : Quad) (k : Nat) : Byte := byteOf (quadWord h (k / 4)) (k % 4)

/-- The 16 digest bytes in order (R52). -/
def digestBytes (h : Quad) : List Byte := (List.range 16).map (digestByte h)

/-- The digest field of an RSP: `digest[8k+7:8k]` = digest byte k (R73). Irreducible, so that comparing
two responses never evaluates it on variables; `packDigest_eq` unfolds it. -/
@[irreducible] def packDigest (h : Quad) : BitVec 128 := BitVec.ofNat 128 (packBytes (digestBytes h))

end Sys2Proof.Machine
end

