-- ==== Sys2Proof/Machine/Compression.lean ====
section
/-! DEFINITION. The MD5 compression function (R100 to R113), pure and total. Its working state (R27) is
the incoming state `cv`, the message words read from `blk`, the working variables (a Quad) and the
step index; none of it outlives the operation. -/

namespace Sys2Proof.Machine

/-- Round function F (R100). -/
def roundF (b c d : Word) : Word := (b &&& c) ||| (~~~b &&& d)
/-- Round function G (R101). -/
def roundG (b c d : Word) : Word := (b &&& d) ||| (c &&& ~~~d)
/-- Round function H (R102); not the chaining state. -/
def roundH (b c d : Word) : Word := b ^^^ c ^^^ d
/-- Round function I (R103). -/
def roundI (b c d : Word) : Word := c ^^^ (b ||| ~~~d)

/-- Left rotation of a word (R104), for 1 ≤ s ≤ 31; every amount used lies in 4..23 (R109). -/
def rotl (x : Word) (s : Nat) : Word := (x <<< s) ||| (x >>> (32 - s))

/-- FN(i, b, c, d), the round function that step i selects (R105). Steps are 0..63 (R113). -/
def roundFn (i : Nat) (b c d : Word) : Word :=
  match i / 16 with
  | 0 => roundF b c d
  | 1 => roundG b c d
  | 2 => roundH b c d
  | _ => roundI b c d

/-- IDX(i), the message word that step i uses (R107). -/
def messageIndex (i : Nat) : Nat :=
  match i / 16 with
  | 0 => i % 16
  | 1 => (5 * i + 1) % 16
  | 2 => (3 * i + 5) % 16
  | _ => (7 * i) % 16

/-- Step i on the working variables q = (a, b, c, d), all four written at once (R110). -/
def roundStep (blk : Block) (i : Nat) (q : Quad) : Quad :=
  let f := roundFn i q.b q.c q.d
  let t := q.a + f + messageWord blk (messageIndex i) + kConst i
  ⟨q.d, q.b + rotl t (rotationAmount i), q.b, q.c⟩

/-- The working variables after steps 0, 1, …, n-1 (R113). -/
def roundSteps (blk : Block) (cv : Quad) : Nat → Quad
  | 0 => cv
  | n + 1 => roundStep blk n (roundSteps blk cv n)

/-- Feed-forward: word-wise wrapping addition (R111). -/
def feedForward (cv q : Quad) : Quad := ⟨cv.a + q.a, cv.b + q.b, cv.c + q.c, cv.d + q.d⟩

/-- COMPRESS(CV, BLK): all 64 steps, then the feed-forward (R112, R113). Irreducible, so that comparing
two terms never runs the 64 steps on variables; `compress_eq` unfolds it. -/
@[irreducible] def compress (cv : Quad) (blk : Block) : Quad := feedForward cv (roundSteps blk cv 64)

end Sys2Proof.Machine
end

