-- ==== Sys2Proof/Machine/Flags.lean ====
section
/-! DEFINITION. MD5-CORE has no condition codes, status flags or predicates (R31): what stands in their
place is the FSM guard of R140 and the status codes of R73 and R180. -/

namespace Sys2Proof.Machine

/-- `update` and `finalize` are "valid only in Accepting" (R140). -/
def acceptsInput (u : StreamingUnit) : Bool := decide (u.fsm = .accepting)

/-- The 2-bit code of a status (R73, R180). -/
def Status.code : Status → BitVec 2
  | .ok => 0#2
  | .misuse => 1#2
  | .illegal => 2#2

/-- The host's reading of a status code; code 3 is a fault of the environment (R180; U9). -/
def readStatus (c : BitVec 2) : Except Fault Status :=
  if c = 0#2 then .ok .ok
  else if c = 1#2 then .ok .misuse
  else if c = 2#2 then .ok .illegal
  else .error (.malformedStatus c)

end Sys2Proof.Machine
end

