-- ==== Sys2Proof/Machine/Ops.lean ====
section
/-! DEFINITION. The operations the meanings share: the buffer primitive PUT (R143), FINALIZE's padding
(R145), answering the host, reporting an error (R186), reset (R210, R213) and power-on (R212). -/

namespace Sys2Proof.Machine

/-- PUT(b) (R143): write BUF[BUFLEN]; a full buffer is compressed into H and emptied. -/
def put (u : StreamingUnit) (b : Byte) : StreamingUnit :=
  let buf' := u.buf.set u.bufLen.toNat b u.bufLen.isLt
  if u.bufLen = 63#6 then ((u.setBuf buf').setH (compress u.h buf')).setBufLen 0#6
  else (u.setBuf buf').setBufLen (u.bufLen + 1#6)

/-- PUT each byte of a list in order. -/
def putAll (u : StreamingUnit) (bs : List Byte) : StreamingUnit := bs.foldl put u

/-- R145 step 2, "while BUFLEN != 56: PUT(0x00)". The loop runs at most 63 times (R146), so 64 units
of fuel never run out (`padZeros_bufLen`). -/
def padZeros : Nat → StreamingUnit → StreamingUnit
  | 0, u => u
  | fuel + 1, u => if u.bufLen = 56#6 then u else padZeros fuel (put u 0x00#8)

/-- R145 steps 1 to 4: 0x80, zero bytes, then the length field of LEN as it stands on entry (R148).
Irreducible for the same reason as `compress`; `padAndCompress_eq` unfolds it. -/
@[irreducible] def padAndCompress (u : StreamingUnit) : StreamingUnit :=
  putAll (padZeros 64 (put u 0x80#8)) (le64 (lengthField u.len))

/-- respond(OK), or respond(OK, digest) (R11, R73). -/
def respondOk (s : State) (digest : Option (BitVec 128)) : State := s.addResponse (.rsp .ok digest)

/-- Reporting an error (R180, R186): the response status is the whole report. No state of the unit
changes, no digest is returned, and control goes nowhere. -/
def reportError (s : State) (status : Status) : State := s.addResponse (.rsp status none)

/-- The 64 BUF cells of unit `u` at its `n`-th draw of free values (R210: "BUF's contents are
unspecified"). Numbering the free values by unit, draw and cell is the model's DESIGN CHOICE (log 4):
it leaves open whether two units' unspecified values coincide (R59, R191). -/
def freeBuf (u n : Nat) : Block := Vector.ofFn fun k => Config.freeBufCell u n k.val

/-- Reset (R210, R213): the reset values, BUF at free values, no response. Log 4. -/
def applyReset (s : State) : State :=
  ((s.setUnit (StreamingUnit.reset.setBuf (freeBuf s.unitNo s.draws))).setResetDone true).countDraw

/-- The Streaming unit between power-on and its first reset: every element a free value (R212), numbered by the
unit `u` and its draw `n` (logs 4 and 5). -/
def powerOnUnit (u n : Nat) : StreamingUnit where
  h := ⟨(Config.freeChain u n).1, (Config.freeChain u n).2.1, (Config.freeChain u n).2.2.1, (Config.freeChain u n).2.2.2⟩
  buf := freeBuf u n
  bufLen := Config.freeBufLen u n
  len := Config.freeLen u n
  fsm := if Config.freeFinalized u n then .finalized else .accepting

/-- Power-on (R212): every state element unspecified, and reset awaited. Log 5. -/
def applyPowerOn (s : State) : State :=
  ((s.setUnit (powerOnUnit s.unitNo s.draws)).setResetDone false).countDraw

end Sys2Proof.Machine
end

