-- ==== Sys2Proof/Machine/Compressor.lean ====
section
/-! DEFINITION. The Compressor port's operation COMPRESS (R112). -/

namespace Sys2Proof.Machine

/-- COMPRESS cv, blk (R112, R183): answer `cv_out`, packed per R72; the Streaming unit is neither read
nor written. -/
def execCompress (cv : Quad) (blk : Block) (s : State) : Host.Outcome State Fault Refusal :=
  .next (s.addResponse (.cvOut (packCv (compress cv blk))))

end Sys2Proof.Machine
end

