-- ==== Sys2Proof/Machine/Streaming.lean ====
section
/-! DEFINITION. The Streaming unit's commands INIT, ABSORB and FINALIZE (R140 to R150). -/

namespace Sys2Proof.Machine

/-- INIT (R141): accepted in both FSM states; BUF cells are not written. -/
def execInit (s : State) : Host.Outcome State Fault Refusal :=
  .next (respondOk (s.setUnit ((((s.unit.setH iv).setBufLen 0#6).setLen 0#64).setFsm .accepting)) none)

/-- ABSORB DATA (R142): MISUSE in FINALIZED (R182); else LEN + 1 modulo 2^64 and PUT(DATA). -/
def execAbsorb (data : Byte) (s : State) : Host.Outcome State Fault Refusal :=
  if acceptsInput s.unit then
    .next (respondOk (s.setUnit (put (s.unit.setLen (s.unit.len + 1#64)) data)) none)
  else .next (reportError s .misuse)

/-- FINALIZE (R145): MISUSE in FINALIZED (R182); else pad, compress, enter FINALIZED and answer with
the digest of the final H (R52, R150). -/
def execFinalize (s : State) : Host.Outcome State Fault Refusal :=
  if acceptsInput s.unit then
    let u := padAndCompress s.unit
    .next (respondOk (s.setUnit (u.setFsm .finalized)) (some (packDigest u.h)))
  else .next (reportError s .misuse)

end Sys2Proof.Machine
end

