-- ==== Sys2Proof/Machine/Dispatch.lean ====
section
/-! DEFINITION. One arm for each operation. -/

namespace Sys2Proof.Machine

def exec (i : Instr) (s : State) : Host.Outcome State Fault Refusal :=
  match i with
  | .init => Sys2Proof.Machine.execInit s
  | .absorb data => Sys2Proof.Machine.execAbsorb data s
  | .finalize => Sys2Proof.Machine.execFinalize s
  | .compress cv blk => Sys2Proof.Machine.execCompress cv blk s

end Sys2Proof.Machine
end

