-- ==== Sys2Proof/Machine/Issue.lean ====
section
/-! DEFINITION. What the unit does with one host event (R215): decode first (R185), then run. -/

namespace Sys2Proof.Machine

/-- One operation, whole: decode the transaction, answer ILLEGAL for a word that is no command (R181,
R185), else run the instruction. -/
def issue (t : Transaction) (s : State) : Host.Outcome State Fault Refusal :=
  match decode t with
  | .instr i => exec i s
  | .illegal _ => .next (reportError s .illegal)

/-- One host event. An operation before the first reset is refused (R212); a reset that falls inside an
operation abandons it without a response (R213). Log 6. -/
def runEvent (e : HostEvent) (s : State) : Host.Outcome State Fault Refusal :=
  match e with
  | .operation t => if s.resetDone then issue t s else .refused .operationBeforeReset
  | .reset => .next (applyReset s)
  | .resetDuring _ => if s.resetDone then .next (applyReset s) else .refused .operationBeforeReset
  | .powerOn => .next (applyPowerOn s)

/-- The next event in issue order (R57, R216); with none the unit is idle and holds its state (R193). -/
def runNext (s : State) : Host.Outcome State Fault Refusal :=
  match s.pending with
  | [] => .next s
  | e :: rest => runEvent e (s.setPending rest)

/-- Put a transaction at the head of what the host issues, on a unit that has been reset. -/
def issueFirst (t : Transaction) (s : State) : State :=
  (s.setPending (.operation t :: s.pending)).setResetDone true

end Sys2Proof.Machine
end

