-- ==== Sys2Proof/Machine/Step.lean ====
section
/-! DEFINITION. One step: the host's next event, whole (R56, R57). -/

namespace Sys2Proof.Machine

/-- One step of the machine. -/
def step (s : State) : Host.Outcome State Fault Refusal := runNext s

/-- `s` with the transaction of an opcode-table word as the host's next operation. MD5-CORE fetches
nothing (R60): the host supplies each operation, so this is where the next one stands. Log 1. -/
def State.withFetchWord (s : State) (nbits w : Nat) : State :=
  match tableTransaction nbits w with
  | some t => issueFirst t s
  | none => s

end Sys2Proof.Machine
end

