-- ==== Sys2Proof/Machine/ClosedForm.lean ====
section
/-! DEFINITION. The rules' own closed forms, which the machine never calls: the padding (R146, R149), the
message cut into blocks and the digest of a whole message (R149), the pending bytes (R22), the number of
compressions (R144, R147), and a sequence of instructions run in order (R57). -/

namespace Sys2Proof.Machine

/-- `z = (55 − p) mod 64`, the zero bytes of the padding (R146). -/
def zeroFill (p : Nat) : Nat := ((55 - (p : Int)) % 64).toNat

/-- The bytes FINALIZE puts when BUFLEN is `p` and the length field is `l` (R146). -/
def paddingBytes (p : Nat) (l : Word64) : List Byte :=
  0x80#8 :: (List.replicate (zeroFill p) 0x00#8 ++ le64 l)

/-- `pad(s)` (R149). -/
def padMessage (s : List Byte) : List Byte :=
  s ++ paddingBytes s.length (BitVec.ofNat 64 (8 * s.length))

/-- A block from the first 64 bytes of a list; used only on lists that have them. -/
def blockOfBytes (bs : List Byte) : Block := Vector.ofFn fun k => bs.getD k.val 0#8

/-- The first `m` blocks of a byte list, in order (R149's B_0 … B_{m−1}). -/
def firstBlocks : Nat → List Byte → List Block
  | 0, _ => []
  | m + 1, bs => blockOfBytes (bs.take 64) :: firstBlocks m (bs.drop 64)

/-- All whole blocks of a byte list. -/
def wholeBlocks (bs : List Byte) : List Block := firstBlocks (bs.length / 64) bs

/-- `h_{t+1} = COMPRESS(h_t, B_t)` over a list of blocks (R149). -/
def compressAll (h : Quad) (blocks : List Block) : Quad := blocks.foldl compress h

/-- The chaining state after the whole padded message, from IV (R149). -/
def digestWords (s : List Byte) : Quad := compressAll iv (wholeBlocks (padMessage s))

/-- `digest(s)`, packed as an RSP's digest field (R149, R73). -/
def digestOf (s : List Byte) : BitVec 128 := packDigest (digestWords s)

/-- BUF[0..BUFLEN-1], the pending bytes in arrival order (R22). -/
def pendingBytes (u : StreamingUnit) : List Byte := u.buf.toList.take u.bufLen.toNat

/-- How many compressions a sequence of PUTs performs: one for each byte that meets BUFLEN = 63 (R143). -/
def compressionCount (u : StreamingUnit) : List Byte → Nat
  | [] => 0
  | b :: bs => (if u.bufLen = 63#6 then 1 else 0) + compressionCount (put u b) bs

/-- The expansion of `UPDATE s` (R83): one ABSORB a byte. -/
def updateInstrs (s : List Byte) : List Instr := s.map .absorb

/-- The expansion of `DIGEST s` (R84): INIT, UPDATE s, FINALIZE. -/
def digestInstrs (s : List Byte) : List Instr := .init :: (updateInstrs s ++ [.finalize])

/-- Instructions run left to right (R57), stopping at the first that does not go on. -/
def execAll : List Instr → State → Host.Outcome State Fault Refusal
  | [], s => .next s
  | i :: is, s =>
    match exec i s with
    | .next s' => execAll is s'
    | .fault r => .fault r
    | .refused r => .refused r

/-- `UPDATE s1; …; UPDATE sn` (R61): each piece's expansion run to its end before the next begins. -/
def updateChunks : List (List Byte) → State → Host.Outcome State Fault Refusal
  | [], s => .next s
  | c :: cs, s =>
    match execAll (updateInstrs c) s with
    | .next s' => updateChunks cs s'
    | .fault r => .fault r
    | .refused r => .refused r

/-- Transactions issued left to right (R57), stopping at the first that does not go on. -/
def issueAll : List Transaction → State → Host.Outcome State Fault Refusal
  | [], s => .next s
  | t :: ts, s =>
    match issue t s with
    | .next s' => issueAll ts s'
    | .fault r => .fault r
    | .refused r => .refused r

end Sys2Proof.Machine
end

