-- ==== Sys2Proof/Machine/Assembler.lean ====
section
/-! DEFINITION. The assembler's language (R80 to R85): lines of source as data, the refusals of R82, the
expansion of the pseudo-instructions UPDATE and DIGEST (R83, R84), and the reading of a line of text.
Spelling points the rules leave open are log 12. -/

namespace Sys2Proof.Machine

/-- A source line with its operands as spelled, before any check. -/
inductive SourceLine where
  | init
  | absorb (imm8 : Nat)
  | finalize
  | compress (cv blk : List Nat)
  | update (s : List Nat)
  | digest (s : List Nat)
  deriving DecidableEq, Repr

/-- Why the assembler refuses a line (R82). A refusal never produces a command word. -/
inductive AsmError where
  /-- An `imm8` outside 0..255, or an element of a byte list outside it. -/
  | imm8Range
  /-- A `cv` that is not four 32-bit words. -/
  | cvShape
  /-- A `blk` whose length is not 64. -/
  | blkLength
  /-- Text that is no line of R80 or R81. -/
  | spelling
  deriving DecidableEq, Repr

/-- The assembler's answer. -/
inductive Assembled where
  | instrs (is : List Instr)
  | refused (e : AsmError)
  deriving DecidableEq, Repr

/-- The bytes that a checked byte list spells. -/
def bytesOfNats (s : List Nat) : List Byte := s.map (BitVec.ofNat 8)

/-- The four words that a checked `cv` spells, CV[0] first (R81). -/
def quadOfNats (ws : List Nat) : Quad where
  a := BitVec.ofNat 32 (ws.getD 0 0)
  b := BitVec.ofNat 32 (ws.getD 1 0)
  c := BitVec.ofNat 32 (ws.getD 2 0)
  d := BitVec.ofNat 32 (ws.getD 3 0)

/-- One line assembled: the checks of R82, then the instruction or the expansion (R80, R83, R84). -/
def assembleLine : SourceLine → Assembled
  | .init => .instrs [.init]
  | .absorb n => if imm8Ok n then .instrs [.absorb (BitVec.ofNat 8 n)] else .refused .imm8Range
  | .finalize => .instrs [.finalize]
  | .compress cv blk =>
    if !cvOk cv then .refused .cvShape
    else if blk.length != 64 then .refused .blkLength
    else if !bytesOk blk then .refused .imm8Range
    else .instrs [.compress (quadOfNats cv) (blockOfBytes (bytesOfNats blk))]
  | .update s => if bytesOk s then .instrs (updateInstrs (bytesOfNats s)) else .refused .imm8Range
  | .digest s => if bytesOk s then .instrs (digestInstrs (bytesOfNats s)) else .refused .imm8Range

/-- The transactions that an assembled line issues, in order (R80). -/
def Assembled.transactions : Assembled → List Transaction
  | .instrs is => is.map encode
  | .refused _ => []

/-! ## Reading text -/

/-- A word, a literal or a mark of a source line. -/
inductive Token where
  /-- A run of letters and digits: a mnemonic or a number. -/
  | word (cs : List Char)
  /-- A quoted character, by its ASCII code (R81). -/
  | char (code : Nat)
  /-- A quoted string, by its ASCII codes (R81). -/
  | string (codes : List Nat)
  | comma
  | openBracket
  | closeBracket
  | openBrace
  | closeBrace
  deriving DecidableEq, Repr

/-- Where the reader stands in a line: between tokens, or inside a word, a string or a quoted character. -/
inductive LexMode where
  | between
  | inWord (soFar : List Char)
  | inString (soFar : List Nat)
  | inChar (soFar : Option Nat)
  deriving DecidableEq, Repr

/-- The one-character marks of R81. -/
def markToken (c : Char) : Option Token :=
  match c.toNat with
  | 0x2C => some .comma
  | 0x5B => some .openBracket
  | 0x5D => some .closeBracket
  | 0x7B => some .openBrace
  | 0x7D => some .closeBrace
  | _ => none

/-- Letters and digits. -/
def isWordChar (c : Char) : Bool := c.isAlphanum

/-- The tokens of one line; `;` outside quotes begins a comment that runs to the end (R80). Where a blank is
needed is the model's choice (DESIGN CHOICE, log 12): between two words, and between a word and a quote
straight after it, so that `ABSORB'a'` and `UPDATE"abc"` are refused; not before or after a comma, a
bracket or a brace, so that `UPDATE[0x61]` is read. -/
def lexLine : LexMode → List Char → Option (List Token)
  | .between, [] => some []
  | .inWord w, [] => some [.word w]
  | .inString _, [] => none
  | .inChar _, [] => none
  | .inString codes, c :: cs =>
    if c.toNat = 0x22 then (lexLine .between cs).map (.string codes :: ·)
    else if c.toNat < 128 then lexLine (.inString (codes ++ [c.toNat])) cs
    else none
  | .inChar none, c :: cs => if c.toNat < 128 then lexLine (.inChar (some c.toNat)) cs else none
  | .inChar (some code), c :: cs =>
    if c.toNat = 0x27 then (lexLine .between cs).map (.char code :: ·) else none
  | .inWord w, c :: cs =>
    if isWordChar c then lexLine (.inWord (w ++ [c])) cs
    else if c.toNat = 0x3B then some [.word w]
    else if c.isWhitespace then (lexLine .between cs).map (.word w :: ·)
    else
      match markToken c with
      | some t => (lexLine .between cs).map (fun ts => .word w :: t :: ts)
      | none => none
  | .between, c :: cs =>
    if c.toNat = 0x3B then some []
    else if c.isWhitespace then lexLine .between cs
    else if c.toNat = 0x22 then lexLine (.inString []) cs
    else if c.toNat = 0x27 then lexLine (.inChar none) cs
    else if isWordChar c then lexLine (.inWord [c]) cs
    else
      match markToken c with
      | some t => (lexLine .between cs).map (t :: ·)
      | none => none

/-- The value of a hexadecimal digit. -/
def hexDigit (c : Char) : Option Nat :=
  let n := c.toNat
  if 0x30 ≤ n ∧ n ≤ 0x39 then some (n - 0x30)
  else if 0x41 ≤ n ∧ n ≤ 0x46 then some (n - 0x41 + 10)
  else if 0x61 ≤ n ∧ n ≤ 0x66 then some (n - 0x61 + 10)
  else none

/-- A run of digits in a base, most significant first. -/
def digitsValue (base : Nat) : List Char → Nat → Option Nat
  | [], acc => some acc
  | c :: cs, acc =>
    match hexDigit c with
    | some d => if d < base then digitsValue base cs (acc * base + d) else none
    | none => none

/-- A number spelled in decimal, or as `0x` and 1 to `maxHex` hex digits (R81). -/
def numberOfWord (maxHex : Nat) (w : List Char) : Option Nat :=
  match w with
  | '0' :: 'x' :: ds => if ds.length = 0 ∨ maxHex < ds.length then none else digitsValue 16 ds 0
  | [] => none
  | ds => digitsValue 10 ds 0

/-- An `imm8` literal (R81): decimal, `0x` and one or two hex digits, or a quoted character. -/
def imm8OfToken : Token → Option Nat
  | .word w => numberOfWord 2 w
  | .char c => some c
  | _ => none

/-- A word of a `cv`: `0x` and 1 to 8 hex digits (R81). -/
def cvWordOfToken : Token → Option Nat
  | .word ('0' :: 'x' :: ds) => numberOfWord 8 ('0' :: 'x' :: ds)
  | _ => none

/-- Comma-separated items up to the closing token; what follows it is handed back. There is at least one
item, and no comma before the closing token (DESIGN CHOICE, log 12). -/
def itemsUntil (item : Token → Option Nat) (close : Token) : List Token → Option (List Nat × List Token)
  | [] => none
  | [_] => none
  | t :: u :: ts =>
    match item t with
    | none => none
    | some n =>
      if u = close then some ([n], ts)
      else if u = .comma then (itemsUntil item close ts).map fun r => (n :: r.1, r.2)
      else none

/-- A byte string (R81): `"abc"`, `[0x61, 0x62]` or `[]`. -/
def bytesOperand : List Token → Option (List Nat × List Token)
  | .string codes :: ts => some (codes, ts)
  | .openBracket :: .closeBracket :: ts => some ([], ts)
  | .openBracket :: ts => itemsUntil imm8OfToken .closeBracket ts
  | _ => none

/-- The operands of a COMPRESS line: `cv, blk` (R80, R81). -/
def compressOperands (ts : List Token) : Option SourceLine :=
  match ts with
  | .openBrace :: rest =>
    match itemsUntil cvWordOfToken .closeBrace rest with
    | some (cv, .comma :: rest') =>
      match bytesOperand rest' with
      | some (blk, []) => some (.compress cv blk)
      | _ => none
    | _ => none
  | _ => none

/-- A line's tokens read as a statement (R80, R83, R84). -/
def parseTokens (ts : List Token) : Option SourceLine :=
  match ts with
  | [.word ['I', 'N', 'I', 'T']] => some .init
  | [.word ['F', 'I', 'N', 'A', 'L', 'I', 'Z', 'E']] => some .finalize
  | [.word ['A', 'B', 'S', 'O', 'R', 'B'], t] => (imm8OfToken t).map .absorb
  | .word ['C', 'O', 'M', 'P', 'R', 'E', 'S', 'S'] :: rest => compressOperands rest
  | .word ['U', 'P', 'D', 'A', 'T', 'E'] :: rest =>
    match bytesOperand rest with
    | some (s, []) => some (.update s)
    | _ => none
  | .word ['D', 'I', 'G', 'E', 'S', 'T'] :: rest =>
    match bytesOperand rest with
    | some (s, []) => some (.digest s)
    | _ => none
  | _ => none

/-- One line of text assembled. A blank or comment line gives no instructions. -/
def assembleText (line : List Char) : Assembled :=
  match lexLine .between line with
  | none => .refused .spelling
  | some [] => .instrs []
  | some ts =>
    match parseTokens ts with
    | none => .refused .spelling
    | some l => assembleLine l

/-- A text cut at its line ends. -/
def splitLines : List Char → List Char → List (List Char)
  | line, [] => [line]
  | line, c :: cs => if c.toNat = 0x0A then line :: splitLines [] cs else splitLines (line ++ [c]) cs

/-- Lines assembled in order (R80: one command a line); the first refusal is the whole answer (DESIGN
CHOICE, log 12). -/
def assembleLines : List (List Char) → Assembled
  | [] => .instrs []
  | l :: ls =>
    match assembleText l, assembleLines ls with
    | .instrs is, .instrs js => .instrs (is ++ js)
    | .refused e, _ => .refused e
    | .instrs _, .refused e => .refused e

/-- A source text assembled (R80). -/
def assembleSource (text : List Char) : Assembled := assembleLines (splitLines [] text)

end Sys2Proof.Machine
end

