-- ==== Sys2Proof/Machine/Units.lean ====
section
/-! DEFINITION. Several independent units (R8, R34, R191). Each is a whole machine of its own; a step
names the unit it acts on, and nothing passes between units. Log 8. -/

namespace Sys2Proof.Machine

/-- The units of a platform, by number. The host cannot see the number (R191). -/
structure Platform where
  units : List State
  deriving DecidableEq, Repr

/-- `n` units right after reset (R210), each with its own number, so that what their later resets and
power-ons leave unspecified is not said to coincide (R191). Their BUFs right here are all the zero bytes
that log 3 names, which is that log's choice. R191 gives units no start-up order. Log 8. -/
def Platform.reset (n : Nat) : Platform := ⟨(List.range n).map fun k => State.reset.setUnitNo k⟩

/-- The platform of this implementation: N_UNITS units (R8). -/
def Platform.boot : Platform := Platform.reset Config.nUnits

/-- One step of unit `u`. -/
def Platform.stepUnit (p : Platform) (u : Nat) : Host.Outcome Platform Fault Refusal :=
  match p.units[u]? with
  | none => .refused (.noSuchUnit u)
  | some s =>
    match step s with
    | .next s' => .next ⟨p.units.set u s'⟩
    | .fault r => .fault r
    | .refused r => .refused r

/-- Steps of the units named in a schedule, in order, stopping at the first that does not go on. -/
def Platform.run : Platform → List Nat → Host.Outcome Platform Fault Refusal
  | p, [] => .next p
  | p, u :: us =>
    match p.stepUnit u with
    | .next p' => Platform.run p' us
    | .fault r => .fault r
    | .refused r => .refused r

end Sys2Proof.Machine
end

