-- ==== Sys2Proof/Safety.lean ====
section
/-! DEFINITION. What claims about a run are said in: the invariant between operations (R23, R26), the
relation "the same but for stale BUF cells" (R22), and the legal command words (R77). -/

namespace Sys2Proof.Machine

/-- Between operations on a unit that has been reset: `BUFLEN = LEN mod 64` while ACCEPTING (R26), and
BUFLEN = 0 in FINALIZED (R26, R150). -/
def StreamingUnit.Consistent (u : StreamingUnit) : Prop :=
  match u.fsm with
  | .accepting => u.bufLen.toNat = u.len.toNat % 64
  | .finalized => u.bufLen = 0#6

/-- R212 promises nothing of a unit that has not been reset. -/
def State.Consistent (s : State) : Prop := s.resetDone = true → s.unit.Consistent

/-- Two units that differ at most in BUF cells at and beyond BUFLEN, which no rule reads (R22). -/
def StreamingUnit.SameButStale (u v : StreamingUnit) : Prop :=
  u.h = v.h ∧ u.bufLen = v.bufLen ∧ u.len = v.len ∧ u.fsm = v.fsm ∧
    ∀ (k : Nat) (hk : k < 64), k < u.bufLen.toNat → u.buf[k] = v.buf[k]

/-- Two machines that differ at most in stale BUF cells. -/
def State.SameButStale (s t : State) : Prop :=
  s.unit.SameButStale t.unit ∧ s.resetDone = t.resetDone ∧ s.pending = t.pending ∧
    s.responses = t.responses ∧ s.draws = t.draws ∧ s.unitNo = t.unitNo

/-- What the host observes of a run (R220). -/
def State.observation (s : State) : List Response := s.responses

/-- The start of a run (R220): reset has been applied, and the host will issue `xs` one at a time. -/
def startOfRun (xs : List Transaction) : State := State.reset.setPending (xs.map .operation)

/-- A run (R220): it ends when the response to its last operation has returned. -/
def runOf (xs : List Transaction) : Host.Outcome State Fault Refusal :=
  Host.Core.run Sys2Proof.core xs.length (startOfRun xs)

/-- The 258 legal command words (R77): INIT, FINALIZE, and ABSORB of each DATA value. -/
def legalWords : List Word :=
  0x10000000#32 :: 0x30000000#32 :: (List.range 256).map fun d => 0x20000000#32 ||| BitVec.ofNat 32 d

end Sys2Proof.Machine
end

