-- ==== Sys2Proof/Certificates/Slice0/Obligations.lean ====
section
/-! DEFINITION. The statements about MD5-CORE for the provers. Each follows the numbered rules its
docstring names; nothing here is proved. -/

open Sys2Proof Sys2Proof.Machine

/-! ## Encoding -/

/-- Every instruction meets the operand checks of R82, and decoding its encoding gives it back with
every operand (R72, R74, R76). -/
def Obligations.DecodeOfEncodeIsTheInstruction : Prop :=
  (∀ i : Instr, i.wellFormed = true) ∧ ∀ i : Instr, i.wellFormed = true → decode (encode i) = .instr i

/-- A transaction that decodes to an instruction is that instruction's encoding: no operation has two
encodings (R74, R72, R76). -/
def Obligations.EncodeOfDecodeIsTheTransaction : Prop :=
  ∀ (t : Transaction) (i : Instr), decode t = .instr i → encode i = t

/-- R77, R181: the legal words are 258 distinct ones; a word is none of them exactly when its OP is reserved
or a "must be 0" bit is 1; in both FSM states such a word changes nothing and is answered ILLEGAL. -/
def Obligations.IllegalWordsAreAllButTwoHundredFiftyEight : Prop :=
  legalWords.Nodup ∧ legalWords.length = 258 ∧
  (∀ w : Word, w ∈ legalWords ↔ ∃ i, decodeCommand w = .instr i) ∧
  (∀ w : Word, w ∉ legalWords ↔
    (opField w = 0 ∨ 4 ≤ (opField w).toNat) ∨
    ((opField w = 1 ∨ opField w = 3) ∧ w.extractLsb' 0 28 ≠ 0) ∨
    (opField w = 2 ∧ w.extractLsb' 8 20 ≠ 0)) ∧
  (∀ (w : Word) (s : State), w ∉ legalWords →
    issue (.command w) s = .next { s with responses := s.responses ++ [.rsp .illegal none] })

/-- Words written out from the encodings of R74 decode to the instructions 95_test_vectors.md L2.5 names,
and reserved ones to ILLEGAL. The reason beside each ILLEGAL (reservedOp, mustBeZero) is the model's
choice, log 14, and is never returned. -/
def Obligations.SampleWordsDecode : Prop :=
  decodeCommand 0b00010000000000000000000000000000#32 = .instr .init ∧
  decodeCommand 0b00100000000000000000000001100001#32 = .instr (.absorb 0x61#8) ∧
  decodeCommand 0b00100000000000000000000011111111#32 = .instr (.absorb 0xff#8) ∧
  decodeCommand 0b00110000000000000000000000000000#32 = .instr .finalize ∧
  decodeCommand 0x00000000#32 = .illegal (.reservedOp 0x0#4) ∧
  decodeCommand 0xf0000000#32 = .illegal (.reservedOp 0xf#4) ∧
  decodeCommand 0x10000001#32 = .illegal (.mustBeZero 0x1#4) ∧
  decodeCommand 0x20000100#32 = .illegal (.mustBeZero 0x2#4) ∧
  decodeCommand 0x30800000#32 = .illegal (.mustBeZero 0x3#4)

/-- R85: the encoding examples, from their source lines. -/
def Obligations.EncodingExamplesAssemble : Prop :=
  (assembleText "INIT".toList).transactions = [.command 0x10000000#32] ∧
  (assembleText "ABSORB 'a'".toList).transactions = [.command 0x20000061#32] ∧
  (assembleText "ABSORB 0xFF".toList).transactions = [.command 0x200000FF#32] ∧
  (assembleText "FINALIZE".toList).transactions = [.command 0x30000000#32] ∧
  (assembleText "UPDATE \"abc\"".toList).transactions =
    [.command 0x20000061#32, .command 0x20000062#32, .command 0x20000063#32] ∧
  assembleText "UPDATE []".toList = .instrs []

/-- R82: an `imm8` outside 0..255, a `cv` that is not four words and a `blk` that is not 64 bytes long
are refused; within them a line is assembled; and a refusal produces no command word. A `cv` entry
beyond 32 bits and a `blk` entry beyond a byte are refused too; that, the refusals' names and the order
of the checks are the model's choice, log 12. -/
def Obligations.AssemblerRefusesExactlyTheBadOperands : Prop :=
  (∀ n : Nat, (255 < n → assembleLine (.absorb n) = .refused .imm8Range) ∧
    (n ≤ 255 → assembleLine (.absorb n) = .instrs [.absorb (BitVec.ofNat 8 n)])) ∧
  (∀ cv blk : List Nat, cv.length ≠ 4 → assembleLine (.compress cv blk) = .refused .cvShape) ∧
  (∀ cv blk : List Nat, cv.length = 4 → (∀ w ∈ cv, w < 2 ^ 32) → blk.length ≠ 64 →
    assembleLine (.compress cv blk) = .refused .blkLength) ∧
  (∀ cv blk : List Nat, (∃ w ∈ cv, 2 ^ 32 ≤ w) → assembleLine (.compress cv blk) = .refused .cvShape) ∧
  (∀ cv blk : List Nat, cv.length = 4 → (∀ w ∈ cv, w < 2 ^ 32) → blk.length = 64 → (∃ b ∈ blk, 256 ≤ b) →
    assembleLine (.compress cv blk) = .refused .imm8Range) ∧
  (∀ cv blk : List Nat, cv.length = 4 → (∀ w ∈ cv, w < 2 ^ 32) → blk.length = 64 → (∀ b ∈ blk, b < 256) →
    ∃ (q : Quad) (b : Block), assembleLine (.compress cv blk) = .instrs [.compress q b] ∧
      [q.a.toNat, q.b.toNat, q.c.toNat, q.d.toNat] = cv ∧ b.toList.map (·.toNat) = blk) ∧
  (∀ e : AsmError, (Assembled.refused e).transactions = [])

/-- R72: the three vectors of the Compressor port, element by element, and the derived reading of
`blk_in` as message words; COMPRESS is one transaction and no command word. -/
def Obligations.CompressorPortPacking : Prop :=
  (∀ (q : Quad) (j : Nat), j < 4 → (packCv q).extractLsb' (32 * j) 32 = quadWord q j) ∧
  (∀ (blk : Block) (k : Nat) (hk : k < 64), (packBlk blk).extractLsb' (8 * k) 8 = blk[k]) ∧
  (∀ (blk : Block) (j : Nat), j < 16 → (packBlk blk).extractLsb' (32 * j) 32 = messageWord blk j) ∧
  (∀ (cv : Quad) (blk : Block), decode (.compressor (packCv cv) (packBlk blk)) = .instr (.compress cv blk)) ∧
  (∀ (w : Word) (cv : Quad) (blk : Block), decodeCommand w ≠ .instr (.compress cv blk)) ∧
  (∀ (cv : Quad) (blk : Block) (s : State), issue (.compressor (packCv cv) (packBlk blk)) s =
    .next { s with responses := s.responses ++ [.cvOut (packCv (compress cv blk))] })

/-! ## The Compressor -/

/-- R50: message word j is its four bytes with the first lowest; bytes 00 01 02 03 give 0x03020100. -/
def Obligations.MessageWordsAreLittleEndian : Prop :=
  (∀ (blk : Block) (j : Nat) (hj : j < 16),
    messageWord blk j = blk[4 * j + 3] ++ blk[4 * j + 2] ++ blk[4 * j + 1] ++ blk[4 * j]) ∧
  (∀ (blk : Block) (j i : Nat) (_ : j < 16) (_ : i < 4), byteOf (messageWord blk j) i = blk[4 * j + i]) ∧
  (∀ blk : Block, blk[0] = 0x00#8 → blk[1] = 0x01#8 → blk[2] = 0x02#8 → blk[3] = 0x03#8 →
    messageWord blk 0 = 0x03020100#32)

/-- R100 to R103: each round function by its formula, bit by bit, with the corner cases and examples. -/
def Obligations.RoundFunctionsBitByBit : Prop :=
  (∀ b c d : Word, roundF b c d = (b &&& c) ||| (~~~b &&& d) ∧ roundG b c d = (b &&& d) ||| (c &&& ~~~d) ∧
    roundH b c d = b ^^^ c ^^^ d ∧ roundI b c d = c ^^^ (b ||| ~~~d)) ∧
  (∀ (b c d : Word) (k : Nat), k < 32 →
    (roundF b c d).getLsbD k = (if b.getLsbD k then c.getLsbD k else d.getLsbD k) ∧
    (roundG b c d).getLsbD k = (if d.getLsbD k then b.getLsbD k else c.getLsbD k) ∧
    (roundH b c d).getLsbD k = ((b.getLsbD k ^^ c.getLsbD k) ^^ d.getLsbD k) ∧
    (roundI b c d).getLsbD k = (c.getLsbD k ^^ (b.getLsbD k || !d.getLsbD k))) ∧
  (roundF 0 0 0 = 0 ∧ roundG 0 0 0 = 0 ∧ roundH 0 0 0 = 0 ∧ roundI 0 0 0 = 0xFFFFFFFF#32) ∧
  (roundF 0xFFFFFFFF#32 0xFFFFFFFF#32 0xFFFFFFFF#32 = 0xFFFFFFFF#32 ∧
    roundG 0xFFFFFFFF#32 0xFFFFFFFF#32 0xFFFFFFFF#32 = 0xFFFFFFFF#32 ∧
    roundH 0xFFFFFFFF#32 0xFFFFFFFF#32 0xFFFFFFFF#32 = 0xFFFFFFFF#32 ∧
    roundI 0xFFFFFFFF#32 0xFFFFFFFF#32 0xFFFFFFFF#32 = 0) ∧
  (roundF 0xFFFF0000#32 0xFF00FF00#32 0xF0F0F0F0#32 = 0xFF00F0F0#32 ∧
    roundG 0xFFFF0000#32 0xFF00FF00#32 0xF0F0F0F0#32 = 0xFFF00F00#32 ∧
    roundH 0xFFFF0000#32 0xFF00FF00#32 0xF0F0F0F0#32 = 0xF00F0FF0#32 ∧
    roundI 0xFFFF0000#32 0xFF00FF00#32 0xF0F0F0F0#32 = 0x00FFF00F#32)

/-- R104: for 1 ≤ s ≤ 31, bit k of rotl(x, s) is bit (k − s) mod 32 of x; by 0 or 32 it is x; and the
rule's examples. -/
def Obligations.RotlMovesEachBit : Prop :=
  (∀ (x : Word) (s k : Nat), 1 ≤ s → s ≤ 31 → k < 32 →
    rotl x s = (x <<< s) ||| (x >>> (32 - s)) ∧ (rotl x s).getLsbD k = x.getLsbD ((k + 32 - s) % 32)) ∧
  (∀ x : Word, rotl x 0 = x ∧ rotl x 32 = x) ∧
  rotl 0x80000000#32 7 = 0x00000040#32 ∧ rotl 0x12345678#32 4 = 0x23456781#32 ∧
  rotl 0x00000001#32 31 = 0x80000000#32

/-- R105 and R107: the round function and the message word that each of the 64 steps selects; both
readings of "i" give the same index; each round visits every message word exactly once. -/
def Obligations.StepSelectsFunctionAndMessageWord : Prop :=
  (∀ (i : Nat) (b c d : Word), i < 64 →
    (i / 16 = 0 → roundFn i b c d = roundF b c d ∧ messageIndex i = i % 16 ∧ messageIndex i = i) ∧
    (i / 16 = 1 → roundFn i b c d = roundG b c d ∧ messageIndex i = (5 * i + 1) % 16 ∧
      messageIndex i = (5 * (i % 16) + 1) % 16) ∧
    (i / 16 = 2 → roundFn i b c d = roundH b c d ∧ messageIndex i = (3 * i + 5) % 16 ∧
      messageIndex i = (3 * (i % 16) + 5) % 16) ∧
    (i / 16 = 3 → roundFn i b c d = roundI b c d ∧ messageIndex i = (7 * i) % 16 ∧
      messageIndex i = (7 * (i % 16)) % 16)) ∧
  (∀ r : Nat, r < 4 → ((List.range 16).map fun j => messageIndex (16 * r + j)).Perm (List.range 16))

/-- R109: the rotation amounts, round by round, cycling every 4 steps; all of them lie in 4..23. -/
def Obligations.RotationAmountsCycleInEachRound : Prop :=
  (∀ i : Nat, i < 64 → rotationAmount i =
    ([[7, 12, 17, 22], [5, 9, 14, 20], [4, 11, 16, 23], [6, 10, 15, 21]].getD (i / 16) []).getD (i % 4) 0) ∧
  (∀ i : Nat, i < 60 → i / 16 = (i + 4) / 16 → rotationAmount (i + 4) = rotationAmount i) ∧
  (∀ i : Nat, i < 64 → 4 ≤ rotationAmount i ∧ rotationAmount i ≤ 23)

/-- R110 to R113: COMPRESS always completes: the working variables start at CV, take steps 0 to 63 in
order, each by R110, and are added to CV; nothing but the response changes. The worked example of R112
is the last clause: IV and the padded block of "abc". -/
def Obligations.CompressRunsSixtyFourStepsAndAdds : Prop :=
  (∀ (cv : Quad) (blk : Block) (s : State), ∃ v : Nat → Quad,
    v 0 = cv ∧
    (∀ i : Nat, i < 64 → v (i + 1) =
      ⟨(v i).d,
       (v i).b + rotl ((v i).a + roundFn i (v i).b (v i).c (v i).d + messageWord blk (messageIndex i) + kConst i)
          (rotationAmount i),
       (v i).b, (v i).c⟩) ∧
    exec (.compress cv blk) s = .next { s with
      responses := s.responses ++
        [.cvOut (packCv ⟨cv.a + (v 64).a, cv.b + (v 64).b, cv.c + (v 64).c, cv.d + (v 64).d⟩)] }) ∧
  compress ⟨0x67452301#32, 0xefcdab89#32, 0x98badcfe#32, 0x10325476#32⟩
      (blockOfBytes ([0x61#8, 0x62#8, 0x63#8, 0x80#8] ++ List.replicate 52 0#8 ++ (0x18#8 :: List.replicate 7 0#8))) =
    ⟨0x98500190#32, 0xb04fd23c#32, 0x7d3f96d6#32, 0x727fe128#32⟩

/-- R183: COMPRESS gives the same `cv_out`, and no status, whatever the Streaming unit holds and in
both FSM states; and it leaves the unit as it was. -/
def Obligations.CompressIgnoresTheStreamingUnit : Prop :=
  ∀ (cv : Quad) (blk : Block), ∃ v : BitVec 128, ∀ s : State,
    exec (.compress cv blk) s = .next { s with responses := s.responses ++ [.cvOut v] }

/-! ## The Streaming unit -/

/-- R141: INIT completes in every state with the fresh unit and OK, leaving BUF; INIT twice is INIT
once; and INIT is the only instruction that leaves FINALIZED. -/
def Obligations.InitGivesTheFreshUnit : Prop :=
  (∀ s : State, exec .init s = .next { s with
    unit := { s.unit with
      h := ⟨0x67452301#32, 0xefcdab89#32, 0x98badcfe#32, 0x10325476#32⟩, bufLen := 0#6, len := 0#64, fsm := .accepting }
    responses := s.responses ++ [.rsp .ok none] }) ∧
  (∀ s t t' : State, exec .init s = .next t → exec .init t = .next t' → t'.unit = t.unit) ∧
  (∀ (i : Instr) (s t : State), s.unit.fsm = .finalized → exec i s = .next t → t.unit.fsm ≠ .finalized → i = .init)

/-- R140, R182: the six cells of the transition table: effect, next FSM value and response; MISUSE comes
with no digest and no change, and INIT is never MISUSE. -/
def Obligations.TransitionTable : Prop :=
  (∀ s : State, exec .init s = .next { s with
    unit := { s.unit with h := iv, bufLen := 0#6, len := 0#64, fsm := .accepting }
    responses := s.responses ++ [.rsp .ok none] }) ∧
  (∀ s : State, s.unit.fsm = .accepting →
    (∀ d : Byte, (put { s.unit with len := s.unit.len + 1#64 } d).fsm = .accepting ∧
      exec (.absorb d) s = .next { s with
        unit := put { s.unit with len := s.unit.len + 1#64 } d
        responses := s.responses ++ [.rsp .ok none] }) ∧
    exec .finalize s = .next { s with
      unit := { padAndCompress s.unit with fsm := .finalized }
      responses := s.responses ++ [.rsp .ok (some (packDigest (padAndCompress s.unit).h))] }) ∧
  (∀ s : State, s.unit.fsm = .finalized →
    (∀ d : Byte, exec (.absorb d) s = .next { s with responses := s.responses ++ [.rsp .misuse none] }) ∧
    exec .finalize s = .next { s with responses := s.responses ++ [.rsp .misuse none] })

/-- R142 and R143: ABSORB in ACCEPTING completes: LEN + 1 modulo 2^64, the byte in BUF[BUFLEN]; a byte
that fills the block compresses it into H and empties the buffer. Nothing else changes. In FINALIZED it
is MISUSE. -/
def Obligations.AbsorbStoresTheByteOrCompresses : Prop :=
  (∀ (d : Byte) (s : State), s.unit.fsm = .finalized →
    exec (.absorb d) s = .next { s with responses := s.responses ++ [.rsp .misuse none] }) ∧
  ∀ (d : Byte) (s : State), s.unit.fsm = .accepting →
    (s.unit.bufLen ≠ 63#6 → exec (.absorb d) s = .next { s with
      unit := { s.unit with
        buf := s.unit.buf.set s.unit.bufLen.toNat d s.unit.bufLen.isLt
        bufLen := s.unit.bufLen + 1#6
        len := s.unit.len + 1#64 }
      responses := s.responses ++ [.rsp .ok none] }) ∧
    (s.unit.bufLen = 63#6 → exec (.absorb d) s = .next { s with
      unit := { s.unit with
        h := compress s.unit.h (s.unit.buf.set 63 d)
        buf := s.unit.buf.set 63 d
        bufLen := 0#6
        len := s.unit.len + 1#64 }
      responses := s.responses ++ [.rsp .ok none] })

/-- R145 and R150: FINALIZE in ACCEPTING completes. Its H is the compression, block by block, of the
pending bytes and the padding; BUF holds the final block, BUFLEN is 0, LEN is as on entry, FSM is
FINALIZED, and the response carries the digest of that H. Nothing else changes. -/
def Obligations.FinalizePadsCompressesAndAnswers : Prop :=
  ∀ s : State, s.unit.fsm = .accepting →
    exec .finalize s = .next { s with
      unit := {
        h := compressAll s.unit.h (wholeBlocks
          (pendingBytes s.unit ++ paddingBytes s.unit.bufLen.toNat (lengthField s.unit.len)))
        buf := (wholeBlocks
          (pendingBytes s.unit ++ paddingBytes s.unit.bufLen.toNat (lengthField s.unit.len))).getLastD s.unit.buf
        bufLen := 0#6
        len := s.unit.len
        fsm := .finalized }
      responses := s.responses ++ [.rsp .ok (some (packDigest (compressAll s.unit.h (wholeBlocks
        (pendingBytes s.unit ++ paddingBytes s.unit.bufLen.toNat (lengthField s.unit.len))))))] }

/-- R146: FINALIZE's PUTs are 0x80, z = (55 − p) mod 64 zero bytes and the length field; the zero loop
ends with BUFLEN = 56; the padding is 9 to 72 bytes long and fills one block or two. -/
def Obligations.PaddingLayout : Prop :=
  (∀ u : StreamingUnit, padAndCompress u = putAll u (paddingBytes u.bufLen.toNat (lengthField u.len)) ∧
    padZeros 64 (put u 0x80#8) = putAll u (0x80#8 :: List.replicate (zeroFill u.bufLen.toNat) 0x00#8) ∧
    (padZeros 64 (put u 0x80#8)).bufLen = 56#6) ∧
  (∀ (p : Nat) (l : Word64), p < 64 →
    (paddingBytes p l).length = 9 + zeroFill p ∧ 9 ≤ 9 + zeroFill p ∧ 9 + zeroFill p ≤ 72 ∧
    (p ≤ 55 → p + 9 + zeroFill p = 64) ∧ (56 ≤ p → p + 9 + zeroFill p = 128))

/-- R147: FINALIZE compresses once when BUFLEN ≤ 55 and twice when BUFLEN ≥ 56, on the blocks the rule
names. -/
def Obligations.FinalizeCompressesOnceOrTwice : Prop :=
  ∀ s t : State, s.unit.fsm = .accepting → exec .finalize s = .next t →
    (s.unit.bufLen.toNat ≤ 55 →
      compressionCount s.unit (paddingBytes s.unit.bufLen.toNat (lengthField s.unit.len)) = 1 ∧
      t.unit.h = compress s.unit.h (blockOfBytes (pendingBytes s.unit ++
        (0x80#8 :: (List.replicate (55 - s.unit.bufLen.toNat) 0#8 ++ le64 (lengthField s.unit.len)))))) ∧
    (56 ≤ s.unit.bufLen.toNat →
      compressionCount s.unit (paddingBytes s.unit.bufLen.toNat (lengthField s.unit.len)) = 2 ∧
      t.unit.h = compress
        (compress s.unit.h (blockOfBytes (pendingBytes s.unit ++
          (0x80#8 :: List.replicate (63 - s.unit.bufLen.toNat) 0#8))))
        (blockOfBytes (List.replicate 56 0#8 ++ le64 (lengthField s.unit.len))))

/-- R148: L is LEN × 8 modulo 2^64, that is LEN[60:0] and three zero bits, so LEN bits 63..61 do not
appear and adding 2^61 bytes does not change it. -/
def Obligations.LengthFieldWraps : Prop :=
  ∀ len : Word64,
    (lengthField len).toNat = (len.toNat * 8) % 2 ^ 64 ∧
    lengthField len = len.extractLsb' 0 61 ++ 0#3 ∧
    lengthField (len + 0x2000000000000000#64) = lengthField len

/-- R51: after FINALIZE the final block's bytes 56..63 are the length field, least significant first,
so that M[14] = L[31:0] and M[15] = L[63:32]. -/
def Obligations.LengthFieldEndsTheFinalBlock : Prop :=
  ∀ s t : State, s.unit.fsm = .accepting → exec .finalize s = .next t →
    (lengthField s.unit.len).toNat = (s.unit.len.toNat * 8) % 2 ^ 64 ∧
    (∀ (k : Nat) (hk : k < 8), t.unit.buf[56 + k] = (lengthField s.unit.len).extractLsb' (8 * k) 8) ∧
    messageWord t.unit.buf 14 = (lengthField s.unit.len).extractLsb' 0 32 ∧
    messageWord t.unit.buf 15 = (lengthField s.unit.len).extractLsb' 32 32

/-- R52: the 16 digest bytes are A, B, C, D, each least significant byte first; packed (R73) they are
`{H[3], H[2], H[1], H[0]}`. -/
def Obligations.DigestIsTheStateLittleEndian : Prop :=
  ∀ h : Quad,
    digestBytes h = [byteOf h.a 0, byteOf h.a 1, byteOf h.a 2, byteOf h.a 3,
      byteOf h.b 0, byteOf h.b 1, byteOf h.b 2, byteOf h.b 3,
      byteOf h.c 0, byteOf h.c 1, byteOf h.c 2, byteOf h.c 3,
      byteOf h.d 0, byteOf h.d 1, byteOf h.d 2, byteOf h.d 3] ∧
    (∀ k : Nat, k < 16 → digestByte h k = byteOf (quadWord h (k / 4)) (k % 4)) ∧
    packDigest h = h.d ++ h.c ++ h.b ++ h.a ∧
    (∀ k : Nat, k < 16 → (packDigest h).extractLsb' (8 * k) 8 = digestByte h k)

/-- R144: n accepted ABSORBs from BUFLEN = p perform (p + n) div 64 compressions, end with
BUFLEN = (p + n) mod 64 and LEN + n modulo 2^64; 64 bytes from the INIT state compress once. -/
def Obligations.AbsorbRunCounts : Prop :=
  (∀ (ds : List Byte) (s : State), s.unit.fsm = .accepting →
    ∃ t, execAll (updateInstrs ds) s = .next t ∧
      compressionCount (s.unit.setLen (s.unit.len + BitVec.ofNat 64 ds.length)) ds =
        (s.unit.bufLen.toNat + ds.length) / 64 ∧
      t.unit.bufLen.toNat = (s.unit.bufLen.toNat + ds.length) % 64 ∧
      t.unit.len = s.unit.len + BitVec.ofNat 64 ds.length) ∧
  (∀ (ds : List Byte) (s t0 : State), ds.length = 64 → exec .init s = .next t0 →
    ∃ t, execAll (updateInstrs ds) t0 = .next t ∧ compressionCount t0.unit ds = 1 ∧
      t.unit.bufLen = 0#6 ∧ t.unit.len = 64#64)

/-- R143, R22, R144: what a run of ABSORBs leaves: H has taken every whole block of the pending bytes
followed by the new ones, and the pending bytes are the rest, in arrival order. -/
def Obligations.AbsorbRunCompressesWholeBlocks : Prop :=
  ∀ (ds : List Byte) (s : State), s.unit.fsm = .accepting →
    ∃ t, execAll (updateInstrs ds) s = .next t ∧
      t.unit.h = compressAll s.unit.h (wholeBlocks (pendingBytes s.unit ++ ds)) ∧
      pendingBytes t.unit =
        (pendingBytes s.unit ++ ds).drop (64 * ((s.unit.bufLen.toNat + ds.length) / 64))

/-- R83: UPDATE gives the state of the source's `update`, which adds n to LEN and then fills the
buffer; in FINALIZED every ABSORB of it is MISUSE and it has no effect; UPDATE [] does nothing. -/
def Obligations.UpdateIsTheSourcesUpdate : Prop :=
  (∀ (ds : List Byte) (s : State), s.unit.fsm = .accepting →
    execAll (updateInstrs ds) s = .next { s with
      unit := putAll { s.unit with len := s.unit.len + BitVec.ofNat 64 ds.length } ds
      responses := s.responses ++ List.replicate ds.length (.rsp .ok none) }) ∧
  (∀ (ds : List Byte) (s : State), s.unit.fsm = .finalized →
    execAll (updateInstrs ds) s = .next { s with
      responses := s.responses ++ List.replicate ds.length (.rsp .misuse none) }) ∧
  (∀ s : State, execAll (updateInstrs []) s = .next s) ∧
  (∀ ds : List Nat, (∀ b ∈ ds, b < 256) →
    assembleLine (.update ds) = .instrs (ds.map fun b => .absorb (BitVec.ofNat 8 b)))

/-- R61: from any state, any split of a byte sequence into pieces (empty ones too) leaves the state
that one UPDATE of the whole leaves. -/
def Obligations.ChunkingInvariance : Prop :=
  ∀ (chunks : List (List Byte)) (s : State),
    updateChunks chunks s = execAll (updateInstrs chunks.flatten) s

/-- R149: INIT; UPDATE msg; FINALIZE, issued as encoded transactions from any state of a unit that has
been reset, answers OK to each and at the end the digest of the closed form; pad(msg) is a positive
whole number of blocks. -/
def Obligations.DigestHasTheClosedForm : Prop :=
  ∀ (msg : List Byte) (s : State) (rest : List HostEvent), s.resetDone = true →
    s.pending = ((digestInstrs msg).map fun i => .operation (encode i)) ++ rest →
    (padMessage msg).length % 64 = 0 ∧ 64 ≤ (padMessage msg).length ∧
    ∃ t : State, Host.Core.run Sys2Proof.core (msg.length + 2) s = .next t ∧
      t.unit.h = compressAll ⟨0x67452301#32, 0xefcdab89#32, 0x98badcfe#32, 0x10325476#32⟩
        (wholeBlocks (msg ++ (0x80#8 :: (List.replicate ((55 - (msg.length : Int)) % 64).toNat 0x00#8 ++
          le64 (BitVec.ofNat 64 (8 * msg.length)))))) ∧
      t.responses = s.responses ++ List.replicate (msg.length + 1) (.rsp .ok none) ++
        [.rsp .ok (some (packDigest t.unit.h))] ∧
      t.unit.fsm = .finalized ∧ t.unit.bufLen = 0#6 ∧ t.unit.len = BitVec.ofNat 64 msg.length ∧
      t.pending = rest ∧ t.resetDone = true ∧ t.draws = s.draws ∧ t.unitNo = s.unitNo

/-- R24, R21: LEN changes only by an accepted ABSORB (plus 1) or INIT (to 0); H changes only by INIT, by
an accepted ABSORB that fills the block, or by an accepted FINALIZE. -/
def Obligations.LenAndChainChangeOnlyWhere : Prop :=
  ∀ (i : Instr) (s t : State), exec i s = .next t →
    (t.unit.len ≠ s.unit.len →
      (∃ d, i = .absorb d ∧ s.unit.fsm = .accepting ∧ t.unit.len = s.unit.len + 1#64) ∨
      (i = .init ∧ t.unit.len = 0#64)) ∧
    (t.unit.h ≠ s.unit.h →
      i = .init ∨ (∃ d, i = .absorb d ∧ s.unit.fsm = .accepting ∧ s.unit.bufLen = 63#6) ∨
      (i = .finalize ∧ s.unit.fsm = .accepting))

/-- R25, R187: on a unit that has been reset, a step into FINALIZED runs FINALIZE, and a step out of it
runs INIT or applies reset. -/
def Obligations.FsmMovesOnlyByFinalizeInitAndReset : Prop :=
  ∀ s t : State, s.resetDone = true → t.resetDone = true → step s = .next t →
    (s.unit.fsm = .accepting → t.unit.fsm = .finalized →
      ∃ x rest, s.pending = .operation x :: rest ∧ decode x = .instr .finalize) ∧
    (s.unit.fsm = .finalized → t.unit.fsm = .accepting →
      ∃ e rest, s.pending = e :: rest ∧
        ((∃ x, e = .operation x ∧ decode x = .instr .init) ∨ e = .reset ∨ ∃ x, e = .resetDuring x))

/-! ## Responses and errors -/

/-- R73, R180: every command word gets exactly one RSP; its status is ILLEGAL exactly for a word that is
none of the 258, MISUSE exactly for ABSORB or FINALIZE in FINALIZED, else OK; a status other than OK
comes with no change; the digest is there exactly for an accepted FINALIZE, packed per R73; COMPRESS
answers `cv_out` and no status; and code 3 is no status. -/
def Obligations.EveryCommandGetsOneResponse : Prop :=
  (∀ (w : Word) (s : State), ∃ (t : State) (st : Status) (dg : Option (BitVec 128)),
    issue (.command w) s = .next t ∧ t.responses = s.responses ++ [.rsp st dg] ∧
    (st = .illegal ↔ w ∉ legalWords) ∧
    (st = .misuse ↔ s.unit.fsm = .finalized ∧
      ((∃ d, decodeCommand w = .instr (.absorb d)) ∨ decodeCommand w = .instr .finalize)) ∧
    (st ≠ .ok → t = { s with responses := s.responses ++ [.rsp st none] }) ∧
    (dg.isSome = true ↔ decodeCommand w = .instr .finalize ∧ st = .ok) ∧
    (∀ d, dg = some d → d = t.unit.h.d ++ t.unit.h.c ++ t.unit.h.b ++ t.unit.h.a ∧
      ∀ k : Nat, k < 16 → d.extractLsb' (8 * k) 8 = digestByte t.unit.h k)) ∧
  (∀ (cvIn : BitVec 128) (blkIn : BitVec 512) (s : State), ∃ v,
    issue (.compressor cvIn blkIn) s = .next { s with responses := s.responses ++ [.cvOut v] }) ∧
  (Status.code .ok = 0#2 ∧ Status.code .misuse = 1#2 ∧ Status.code .illegal = 2#2 ∧
    ∀ st : Status, Status.code st ≠ 3#2)

/-- 93_implementation_defined.md U9: the host reads back each status from its code, and code 3 is a
fault. -/
def Obligations.StatusCodesReadBack : Prop :=
  (∀ st : Status, readStatus (Status.code st) = .ok st) ∧ readStatus 3#2 = .error (.malformedStatus 3#2)

/-- R184: every instruction answers a next state from every state; it returns exactly one response and
does not touch the host's coming events, the reset flag, the free-value counter or the unit's number
(model fields, logs 1, 4, 5, 8). -/
def Obligations.EveryInstructionCompletes : Prop :=
  ∀ (i : Instr) (s : State), ∃ (t : State) (r : Response), exec i s = .next t ∧
    t.responses = s.responses ++ [r] ∧ t.pending = s.pending ∧ t.resetDone = s.resetDone ∧ t.draws = s.draws ∧
    t.unitNo = s.unitNo

/-! ## Steps, reset and runs -/

/-- A step runs the decoded instruction on the rest of the host's events (R57, R76). The second clause,
that `withFetchWord` sets up exactly such a step, is the model's choice throughout: where the next
operation stands (log 1) and how the opcode table's bits number a transaction (log 7). -/
def Obligations.StepRunsTheDecodedInstruction : Prop :=
  (∀ (s : State) (x : Transaction) (rest : List HostEvent) (i : Instr), s.resetDone = true →
    s.pending = .operation x :: rest → decode x = .instr i →
    step s = exec i { s with pending := rest }) ∧
  (∀ (s : State) (nbits w : Nat) (i : Instr), decodeTableWord nbits w = some i →
    step (s.withFetchWord nbits w) = exec i { s with resetDone := true })

/-- With no event to come a step is idle and the machine holds its state: the model's reading (DEDUCED,
log 1) of R193's "The unit is idle between operations and holds its state while idle". -/
def Obligations.IdleUnitHoldsItsState : Prop :=
  ∀ s : State, s.pending = [] → step s = .next s

/-- R184: a step never faults. It is refused exactly when the host, before the first reset, issues an
operation, whether or not a reset falls during it. R212 and U3 define no operation there; refusing both
events, and the name operationBeforeReset, are the model's choice, log 5. -/
def Obligations.StepStopsOnlyBeforeReset : Prop :=
  ∀ s : State, (∀ r, step s ≠ .fault r) ∧
    (∀ r, step s = .refused r ↔ r = .operationBeforeReset ∧ s.resetDone = false ∧
      ∃ x rest, s.pending = .operation x :: rest ∨ s.pending = .resetDuring x :: rest)

/-- R210: reset, applied between operations in any state, gives H = IV, BUFLEN = 0, LEN = 0 and
ACCEPTING, returns no response, and gives the unit state of INIT but for BUF; `State.reset` has the same
values. BUF's own values are no rule's (logs 3 and 4) and nothing is said of them. -/
def Obligations.ResetGivesTheInitState : Prop :=
  (∀ (s : State) (rest : List HostEvent), s.pending = .reset :: rest →
    ∃ t, step s = .next t ∧
      t.unit.h = ⟨0x67452301#32, 0xefcdab89#32, 0x98badcfe#32, 0x10325476#32⟩ ∧ t.unit.bufLen = 0#6 ∧
      t.unit.len = 0#64 ∧ t.unit.fsm = .accepting ∧ t.responses = s.responses ∧ t.pending = rest ∧
      t.resetDone = true ∧
      ∀ t', exec .init s = .next t' → { t.unit with buf := t'.unit.buf } = t'.unit) ∧
  (State.reset.unit.h = ⟨0x67452301#32, 0xefcdab89#32, 0x98badcfe#32, 0x10325476#32⟩ ∧
    State.reset.unit.bufLen = 0#6 ∧ State.reset.unit.len = 0#64 ∧ State.reset.unit.fsm = .accepting)

/-- R213: a reset during an operation abandons it: no response, no partial effect, and the reset values.
That this is one event with the very step of a reset alone is the model's reading (DEDUCED, log 6); the
equality covers BUF too, which R210 leaves unspecified and the model fills with free values (log 4). -/
def Obligations.ResetAbandonsTheOperation : Prop :=
  ∀ (s : State) (x : Transaction) (rest : List HostEvent), s.resetDone = true →
    s.pending = .resetDuring x :: rest →
    step s = step { s with pending := .reset :: rest } ∧
    ∃ t, step s = .next t ∧ t.unit.h = iv ∧ t.unit.bufLen = 0#6 ∧ t.unit.len = 0#64 ∧
      t.unit.fsm = .accepting ∧ t.responses = s.responses ∧ t.pending = rest

/-- R212, R214: after power-on an operation is refused until reset has been applied (refusing it, under
the name operationBeforeReset, is the model's choice, log 5); after one reset every instruction runs as
the first operation, with no INIT before it: ABSORB with OK, LEN = 1 and its byte pending; FINALIZE with
OK and the digest of the empty message, entering FINALIZED; COMPRESS with its `cv_out`; INIT with OK. -/
def Obligations.OperationsWaitForTheFirstReset : Prop :=
  ∀ (s : State) (rest : List HostEvent), s.pending = .powerOn :: rest →
    ∃ t, step s = .next t ∧ t.responses = s.responses ∧ t.pending = rest ∧
      (∀ (x : Transaction) (r : List HostEvent), rest = .operation x :: r → step t = .refused .operationBeforeReset) ∧
      (∀ (i : Instr) (r : List HostEvent), rest = .reset :: .operation (encode i) :: r →
        ∃ t1 t2, step t = .next t1 ∧ step t1 = .next t2 ∧ t2.pending = r ∧
          (∀ d : Byte, i = .absorb d → t2.responses = s.responses ++ [.rsp .ok none] ∧
            t2.unit.h = iv ∧ t2.unit.len = 1#64 ∧ pendingBytes t2.unit = [d] ∧ t2.unit.fsm = .accepting) ∧
          (i = .finalize → t2.responses = s.responses ++ [.rsp .ok (some (digestOf []))] ∧
            t2.unit.h = digestWords [] ∧ t2.unit.len = 0#64 ∧ t2.unit.bufLen = 0#6 ∧ t2.unit.fsm = .finalized) ∧
          (∀ (cv : Quad) (blk : Block), i = .compress cv blk →
            t2.responses = s.responses ++ [.cvOut (packCv (compress cv blk))] ∧ t2.unit = t1.unit) ∧
          (i = .init → t2.responses = s.responses ++ [.rsp .ok none] ∧ t2.unit = t1.unit))

/-- R57: issued one at a time, the operations of both ports take effect in issue order: the run of a
sequence is the left-to-right composition of its operations. -/
def Obligations.RunIsCompositionInIssueOrder : Prop :=
  ∀ (xs : List Transaction) (s : State) (rest : List HostEvent), s.resetDone = true →
    s.pending = xs.map .operation ++ rest →
    Host.Core.run Sys2Proof.core xs.length s = issueAll xs { s with pending := rest }

/-- R220, R184: every run ends, with all its operations issued and exactly one response to each. -/
def Obligations.EveryRunAnswersEachOperation : Prop :=
  ∀ xs : List Transaction, ∃ t : State, runOf xs = .next t ∧
    t.observation.length = xs.length ∧ t.pending = [] ∧ t.resetDone = true

/-- R22, R212, R220: what the host observes of a run does not depend on what BUF holds after reset, so
the zero bytes of log 3 are never seen. -/
def Obligations.RunsDoNotDependOnBufAfterReset : Prop :=
  ∀ (xs : List Transaction) (buf : Block) (t : State), runOf xs = .next t →
    ∃ t' : State, Host.Core.run Sys2Proof.core xs.length
        { startOfRun xs with unit := { StreamingUnit.reset with buf := buf } } = .next t' ∧
      t'.observation = t.observation ∧ t'.unit.h = t.unit.h ∧ t'.unit.bufLen = t.unit.bufLen ∧
      t'.unit.len = t.unit.len ∧ t'.unit.fsm = t.unit.fsm ∧ pendingBytes t'.unit = pendingBytes t.unit

/-- R23, R26: a step keeps `BUFLEN = LEN mod 64` while ACCEPTING, and BUFLEN = 0 in FINALIZED. -/
def Obligations.StepKeepsConsistent : Prop :=
  ∀ s t : State, s.Consistent → step s = .next t → t.Consistent

/-- R26, R210: the invariant holds after reset. -/
def Obligations.ResetIsConsistent : Prop := State.reset.Consistent

/-- R22, U2: stale BUF cells are unobservable: two machines that differ only there take the same step to two
that differ only there, with the same responses. For a power-on event this is the model's choice and no
rule's: R212 and U3 leave every element open after it, and the two units agree because the machines have
the same `unitNo` and `draws`, of which the free values are functions (DESIGN CHOICE, logs 4 and 5). -/
def Obligations.StaleBufferCellsAreUnobservable : Prop :=
  ∀ s s' : State, s.SameButStale s' →
    (∀ t, step s = .next t → ∃ t', step s' = .next t' ∧ t.SameButStale t' ∧ t.observation = t'.observation) ∧
    (∀ r, step s = .refused r → step s' = .refused r)

/-! ## Several units -/

/-- R191: a step of one unit leaves every other unit as it was, and steps of two units commute. -/
def Obligations.UnitsAreIndependent : Prop :=
  (∀ (p q : Platform) (u v : Nat), p.stepUnit u = .next q → u ≠ v → q.units[v]? = p.units[v]?) ∧
  (∀ (p q : Platform) (u v : Nat), u ≠ v → p.run [u, v] = .next q → p.run [v, u] = .next q)
end

