-- ==== Sys2Proof/Laws/State.lean ====
section
/-! SUPPORT. One lemma for each field of each named update, so that no later proof unfolds a record
update, and extensionality of the two records. Each is true by rfl; the proofs are written `(rfl)` so that
simp uses them as rewrites: as definitional steps they make the kernel compare whole units, and so
evaluate `compress` on variables. -/

namespace Sys2Proof.Machine

@[simp] theorem StreamingUnit.setH_h (u : StreamingUnit) (h : Quad) : (u.setH h).h = h := (rfl)
@[simp] theorem StreamingUnit.setH_buf (u : StreamingUnit) (h : Quad) : (u.setH h).buf = u.buf := (rfl)
@[simp] theorem StreamingUnit.setH_bufLen (u : StreamingUnit) (h : Quad) : (u.setH h).bufLen = u.bufLen := (rfl)
@[simp] theorem StreamingUnit.setH_len (u : StreamingUnit) (h : Quad) : (u.setH h).len = u.len := (rfl)
@[simp] theorem StreamingUnit.setH_fsm (u : StreamingUnit) (h : Quad) : (u.setH h).fsm = u.fsm := (rfl)

@[simp] theorem StreamingUnit.setBuf_h (u : StreamingUnit) (b : Block) : (u.setBuf b).h = u.h := (rfl)
@[simp] theorem StreamingUnit.setBuf_buf (u : StreamingUnit) (b : Block) : (u.setBuf b).buf = b := (rfl)
@[simp] theorem StreamingUnit.setBuf_bufLen (u : StreamingUnit) (b : Block) : (u.setBuf b).bufLen = u.bufLen := (rfl)
@[simp] theorem StreamingUnit.setBuf_len (u : StreamingUnit) (b : Block) : (u.setBuf b).len = u.len := (rfl)
@[simp] theorem StreamingUnit.setBuf_fsm (u : StreamingUnit) (b : Block) : (u.setBuf b).fsm = u.fsm := (rfl)

@[simp] theorem StreamingUnit.setBufLen_h (u : StreamingUnit) (n : BitVec 6) : (u.setBufLen n).h = u.h := (rfl)
@[simp] theorem StreamingUnit.setBufLen_buf (u : StreamingUnit) (n : BitVec 6) : (u.setBufLen n).buf = u.buf := (rfl)
@[simp] theorem StreamingUnit.setBufLen_bufLen (u : StreamingUnit) (n : BitVec 6) : (u.setBufLen n).bufLen = n := (rfl)
@[simp] theorem StreamingUnit.setBufLen_len (u : StreamingUnit) (n : BitVec 6) : (u.setBufLen n).len = u.len := (rfl)
@[simp] theorem StreamingUnit.setBufLen_fsm (u : StreamingUnit) (n : BitVec 6) : (u.setBufLen n).fsm = u.fsm := (rfl)

@[simp] theorem StreamingUnit.setLen_h (u : StreamingUnit) (n : Word64) : (u.setLen n).h = u.h := (rfl)
@[simp] theorem StreamingUnit.setLen_buf (u : StreamingUnit) (n : Word64) : (u.setLen n).buf = u.buf := (rfl)
@[simp] theorem StreamingUnit.setLen_bufLen (u : StreamingUnit) (n : Word64) : (u.setLen n).bufLen = u.bufLen := (rfl)
@[simp] theorem StreamingUnit.setLen_len (u : StreamingUnit) (n : Word64) : (u.setLen n).len = n := (rfl)
@[simp] theorem StreamingUnit.setLen_fsm (u : StreamingUnit) (n : Word64) : (u.setLen n).fsm = u.fsm := (rfl)

@[simp] theorem StreamingUnit.setFsm_h (u : StreamingUnit) (f : Fsm) : (u.setFsm f).h = u.h := (rfl)
@[simp] theorem StreamingUnit.setFsm_buf (u : StreamingUnit) (f : Fsm) : (u.setFsm f).buf = u.buf := (rfl)
@[simp] theorem StreamingUnit.setFsm_bufLen (u : StreamingUnit) (f : Fsm) : (u.setFsm f).bufLen = u.bufLen := (rfl)
@[simp] theorem StreamingUnit.setFsm_len (u : StreamingUnit) (f : Fsm) : (u.setFsm f).len = u.len := (rfl)
@[simp] theorem StreamingUnit.setFsm_fsm (u : StreamingUnit) (f : Fsm) : (u.setFsm f).fsm = f := (rfl)

@[simp] theorem State.setUnit_unit (s : State) (u : StreamingUnit) : (s.setUnit u).unit = u := (rfl)
@[simp] theorem State.setUnit_resetDone (s : State) (u : StreamingUnit) : (s.setUnit u).resetDone = s.resetDone := (rfl)
@[simp] theorem State.setUnit_pending (s : State) (u : StreamingUnit) : (s.setUnit u).pending = s.pending := (rfl)
@[simp] theorem State.setUnit_responses (s : State) (u : StreamingUnit) : (s.setUnit u).responses = s.responses := (rfl)
@[simp] theorem State.setUnit_draws (s : State) (u : StreamingUnit) : (s.setUnit u).draws = s.draws := (rfl)
@[simp] theorem State.setUnit_unitNo (s : State) (u : StreamingUnit) : (s.setUnit u).unitNo = s.unitNo := (rfl)

@[simp] theorem State.setResetDone_unit (s : State) (b : Bool) : (s.setResetDone b).unit = s.unit := (rfl)
@[simp] theorem State.setResetDone_resetDone (s : State) (b : Bool) : (s.setResetDone b).resetDone = b := (rfl)
@[simp] theorem State.setResetDone_pending (s : State) (b : Bool) : (s.setResetDone b).pending = s.pending := (rfl)
@[simp] theorem State.setResetDone_responses (s : State) (b : Bool) : (s.setResetDone b).responses = s.responses := (rfl)
@[simp] theorem State.setResetDone_draws (s : State) (b : Bool) : (s.setResetDone b).draws = s.draws := (rfl)
@[simp] theorem State.setResetDone_unitNo (s : State) (b : Bool) : (s.setResetDone b).unitNo = s.unitNo := (rfl)

@[simp] theorem State.setPending_unit (s : State) (p : List HostEvent) : (s.setPending p).unit = s.unit := (rfl)
@[simp] theorem State.setPending_resetDone (s : State) (p : List HostEvent) : (s.setPending p).resetDone = s.resetDone := (rfl)
@[simp] theorem State.setPending_pending (s : State) (p : List HostEvent) : (s.setPending p).pending = p := (rfl)
@[simp] theorem State.setPending_responses (s : State) (p : List HostEvent) : (s.setPending p).responses = s.responses := (rfl)
@[simp] theorem State.setPending_draws (s : State) (p : List HostEvent) : (s.setPending p).draws = s.draws := (rfl)
@[simp] theorem State.setPending_unitNo (s : State) (p : List HostEvent) : (s.setPending p).unitNo = s.unitNo := (rfl)

@[simp] theorem State.addResponse_unit (s : State) (r : Response) : (s.addResponse r).unit = s.unit := (rfl)
@[simp] theorem State.addResponse_resetDone (s : State) (r : Response) : (s.addResponse r).resetDone = s.resetDone := (rfl)
@[simp] theorem State.addResponse_pending (s : State) (r : Response) : (s.addResponse r).pending = s.pending := (rfl)
@[simp] theorem State.addResponse_responses (s : State) (r : Response) : (s.addResponse r).responses = s.responses ++ [r] := (rfl)
@[simp] theorem State.addResponse_draws (s : State) (r : Response) : (s.addResponse r).draws = s.draws := (rfl)
@[simp] theorem State.addResponse_unitNo (s : State) (r : Response) : (s.addResponse r).unitNo = s.unitNo := (rfl)

@[simp] theorem State.countDraw_unit (s : State) : (s.countDraw).unit = s.unit := (rfl)
@[simp] theorem State.countDraw_resetDone (s : State) : (s.countDraw).resetDone = s.resetDone := (rfl)
@[simp] theorem State.countDraw_pending (s : State) : (s.countDraw).pending = s.pending := (rfl)
@[simp] theorem State.countDraw_responses (s : State) : (s.countDraw).responses = s.responses := (rfl)
@[simp] theorem State.countDraw_draws (s : State) : (s.countDraw).draws = s.draws + 1 := (rfl)
@[simp] theorem State.countDraw_unitNo (s : State) : (s.countDraw).unitNo = s.unitNo := (rfl)

@[simp] theorem State.setUnitNo_unit (s : State) (n : Nat) : (s.setUnitNo n).unit = s.unit := (rfl)
@[simp] theorem State.setUnitNo_resetDone (s : State) (n : Nat) : (s.setUnitNo n).resetDone = s.resetDone := (rfl)
@[simp] theorem State.setUnitNo_pending (s : State) (n : Nat) : (s.setUnitNo n).pending = s.pending := (rfl)
@[simp] theorem State.setUnitNo_responses (s : State) (n : Nat) : (s.setUnitNo n).responses = s.responses := (rfl)
@[simp] theorem State.setUnitNo_draws (s : State) (n : Nat) : (s.setUnitNo n).draws = s.draws := (rfl)
@[simp] theorem State.setUnitNo_unitNo (s : State) (n : Nat) : (s.setUnitNo n).unitNo = n := (rfl)

/-- Two units are equal when their five fields are. -/
theorem StreamingUnit.eq_of_fields (u v : StreamingUnit) (h1 : u.h = v.h) (h2 : u.buf = v.buf)
    (h3 : u.bufLen = v.bufLen) (h4 : u.len = v.len) (h5 : u.fsm = v.fsm) : u = v := by
  cases u; cases v; simp_all

/-- Two machines are equal when their six fields are. -/
theorem State.eq_of_fields (s t : State) (h1 : s.unit = t.unit) (h2 : s.resetDone = t.resetDone)
    (h3 : s.pending = t.pending) (h4 : s.responses = t.responses) (h5 : s.draws = t.draws)
    (h6 : s.unitNo = t.unitNo) : s = t := by
  cases s; cases t; simp_all

/-- Two Quads are equal when their four words are. -/
theorem quad_eq_of_words (p q : Quad) (ha : p.a = q.a) (hb : p.b = q.b) (hc : p.c = q.c) (hd : p.d = q.d) :
    p = q := by
  cases p; cases q; simp_all

end Sys2Proof.Machine
end

