-- ==== Sys2Proof/Laws/Ops.lean ====
section
/-! SUPPORT. What each shared operation does, said once: PUT and runs of PUTs, the padding loop, the
answers, reset and power-on. Later proofs cite these and do not unfold the operations. -/

namespace Sys2Proof.Machine

/-! ## The digest and COMPRESS -/

/-- The digest field unfolded once (R73). -/
theorem packDigest_eq (h : Quad) : packDigest h = BitVec.ofNat 128 (packBytes (digestBytes h)) := by
  unfold packDigest; rfl

/-- COMPRESS unfolded once: 64 steps, then the feed-forward (R112). -/
theorem compress_eq (cv : Quad) (blk : Block) : compress cv blk = feedForward cv (roundSteps blk cv 64) := by
  unfold compress; rfl

/-- One more step of the 64 (R113). -/
theorem roundSteps_succ (blk : Block) (cv : Quad) (n : Nat) :
    roundSteps blk cv (n + 1) = roundStep blk n (roundSteps blk cv n) := (rfl)

/-! ## PUT -/

/-- PUT short of a full buffer. -/
theorem put_of_room (u : StreamingUnit) (b : Byte) (h : u.bufLen ≠ 63#6) :
    put u b = (u.setBuf (u.buf.set u.bufLen.toNat b u.bufLen.isLt)).setBufLen (u.bufLen + 1#6) := by
  simp [put, h]

/-- PUT of the byte that fills the buffer. -/
theorem put_of_full (u : StreamingUnit) (b : Byte) (h : u.bufLen = 63#6) :
    put u b = ((u.setBuf (u.buf.set u.bufLen.toNat b u.bufLen.isLt)).setH
      (compress u.h (u.buf.set u.bufLen.toNat b u.bufLen.isLt))).setBufLen 0#6 := by
  simp [put, h]

@[simp] theorem put_len (u : StreamingUnit) (b : Byte) : (put u b).len = u.len := by
  by_cases h : u.bufLen = 63#6
  · simp [put_of_full _ _ h]
  · simp [put_of_room _ _ h]

@[simp] theorem put_fsm (u : StreamingUnit) (b : Byte) : (put u b).fsm = u.fsm := by
  by_cases h : u.bufLen = 63#6
  · simp [put_of_full _ _ h]
  · simp [put_of_room _ _ h]

@[simp] theorem put_buf (u : StreamingUnit) (b : Byte) :
    (put u b).buf = u.buf.set u.bufLen.toNat b u.bufLen.isLt := by
  by_cases h : u.bufLen = 63#6 <;> simp [put, h]

/-- BUFLEN counts modulo 64: the transient 64 is the carry out (R23). -/
@[simp] theorem put_bufLen (u : StreamingUnit) (b : Byte) : (put u b).bufLen = u.bufLen + 1#6 := by
  by_cases h : u.bufLen = 63#6 <;> simp [put, h]

theorem put_h_of_room (u : StreamingUnit) (b : Byte) (h : u.bufLen ≠ 63#6) : (put u b).h = u.h := by
  simp [put, h]

theorem put_h_of_full (u : StreamingUnit) (b : Byte) (h : u.bufLen = 63#6) :
    (put u b).h = compress u.h (u.buf.set u.bufLen.toNat b u.bufLen.isLt) := by
  simp [put, h]

/-- PUT neither reads nor writes LEN (R143). -/
theorem put_setLen (u : StreamingUnit) (n : Word64) (b : Byte) : put (u.setLen n) b = (put u b).setLen n := by
  by_cases h : u.bufLen = 63#6
  · rw [put_of_full _ _ h, put_of_full _ _ (by simpa using h)]; rfl
  · rw [put_of_room _ _ h, put_of_room _ _ (by simpa using h)]; rfl

/-- PUT neither reads nor writes FSM (R143). -/
theorem put_setFsm (u : StreamingUnit) (f : Fsm) (b : Byte) : put (u.setFsm f) b = (put u b).setFsm f := by
  by_cases h : u.bufLen = 63#6
  · rw [put_of_full _ _ h, put_of_full _ _ (by simpa using h)]; rfl
  · rw [put_of_room _ _ h, put_of_room _ _ (by simpa using h)]; rfl

/-! ## Runs of PUTs -/

@[simp] theorem putAll_nil (u : StreamingUnit) : putAll u [] = u := (rfl)

@[simp] theorem putAll_cons (u : StreamingUnit) (b : Byte) (bs : List Byte) :
    putAll u (b :: bs) = putAll (put u b) bs := (rfl)

theorem putAll_append (u : StreamingUnit) (as bs : List Byte) :
    putAll u (as ++ bs) = putAll (putAll u as) bs := List.foldl_append

@[simp] theorem putAll_len (u : StreamingUnit) (bs : List Byte) : (putAll u bs).len = u.len := by
  induction bs generalizing u with
  | nil => rfl
  | cons b bs ih => simp [ih]

@[simp] theorem putAll_fsm (u : StreamingUnit) (bs : List Byte) : (putAll u bs).fsm = u.fsm := by
  induction bs generalizing u with
  | nil => rfl
  | cons b bs ih => simp [ih]

theorem putAll_bufLen (u : StreamingUnit) (bs : List Byte) :
    (putAll u bs).bufLen.toNat = (u.bufLen.toNat + bs.length) % 64 := by
  induction bs generalizing u with
  | nil => have := u.bufLen.isLt; simp; omega
  | cons b bs ih => simp only [putAll_cons, ih, put_bufLen, BitVec.toNat_add, List.length_cons]; simp; omega

theorem putAll_setLen (u : StreamingUnit) (n : Word64) (bs : List Byte) :
    putAll (u.setLen n) bs = (putAll u bs).setLen n := by
  induction bs generalizing u with
  | nil => rfl
  | cons b bs ih => simp [put_setLen, ih]

theorem putAll_setFsm (u : StreamingUnit) (f : Fsm) (bs : List Byte) :
    putAll (u.setFsm f) bs = (putAll u bs).setFsm f := by
  induction bs generalizing u with
  | nil => rfl
  | cons b bs ih => simp [put_setFsm, ih]

/-! ## The padding loop -/

/-- The loop stops at once at BUFLEN = 56. -/
theorem padZeros_of_stop (fuel : Nat) (u : StreamingUnit) (h : u.bufLen = 56#6) : padZeros fuel u = u := by
  cases fuel <;> simp [padZeros, h]

/-- The loop turns once more below BUFLEN = 56. -/
theorem padZeros_of_go (fuel : Nat) (u : StreamingUnit) (h : u.bufLen ≠ 56#6) :
    padZeros (fuel + 1) u = padZeros fuel (put u 0x00#8) := by
  simp [padZeros, h]

/-- With fuel for the distance to 56, the loop is a run of that many zero bytes. -/
theorem padZeros_eq_putAll (n fuel : Nat) (u : StreamingUnit) (hn : n < 64) (hf : n ≤ fuel)
    (h : (u.bufLen.toNat + n) % 64 = 56) : padZeros fuel u = putAll u (List.replicate n 0x00#8) := by
  induction n generalizing fuel u with
  | zero =>
    have := u.bufLen.isLt
    exact padZeros_of_stop _ _ (BitVec.eq_of_toNat_eq (by simp; omega))
  | succ n ih =>
    obtain ⟨fuel, rfl⟩ : ∃ f, fuel = f + 1 := ⟨fuel - 1, by omega⟩
    have hne : u.bufLen ≠ 56#6 := fun e => by rw [e] at h; simp at h; omega
    rw [padZeros_of_go _ _ hne, List.replicate_succ, putAll_cons]
    exact ih _ _ (by omega) (by omega) (by rw [put_bufLen, BitVec.toNat_add]; simp; omega)

/-- FINALIZE's padding unfolded once (R145 steps 1 to 4). -/
theorem padAndCompress_eq (u : StreamingUnit) :
    padAndCompress u = putAll (padZeros 64 (put u 0x80#8)) (le64 (lengthField u.len)) := by
  unfold padAndCompress; rfl

/-! ## Answers, errors, reset -/

@[simp] theorem respondOk_unit (s : State) (dg : Option (BitVec 128)) : (respondOk s dg).unit = s.unit := (rfl)
@[simp] theorem respondOk_pending (s : State) (dg : Option (BitVec 128)) : (respondOk s dg).pending = s.pending := (rfl)
@[simp] theorem respondOk_resetDone (s : State) (dg : Option (BitVec 128)) :
    (respondOk s dg).resetDone = s.resetDone := (rfl)
@[simp] theorem respondOk_draws (s : State) (dg : Option (BitVec 128)) : (respondOk s dg).draws = s.draws := (rfl)
@[simp] theorem respondOk_unitNo (s : State) (dg : Option (BitVec 128)) : (respondOk s dg).unitNo = s.unitNo := (rfl)
@[simp] theorem respondOk_responses (s : State) (dg : Option (BitVec 128)) :
    (respondOk s dg).responses = s.responses ++ [.rsp .ok dg] := (rfl)

/-- An error report changes nothing but the responses, and returns no digest (R186). -/
theorem reportError_eq (s : State) (st : Status) :
    reportError s st = { s with responses := s.responses ++ [.rsp st none] } := rfl

@[simp] theorem acceptsInput_iff (u : StreamingUnit) : acceptsInput u = true ↔ u.fsm = .accepting := by
  simp [acceptsInput]

/-- Everything reset does (R210). -/
theorem applyReset_eq (s : State) : applyReset s = { s with
    unit := { h := iv, buf := freeBuf s.unitNo s.draws, bufLen := 0#6, len := 0#64, fsm := .accepting }
    resetDone := true
    draws := s.draws + 1 } := rfl

/-- What power-on does to the fields the host sees (R212). -/
theorem applyPowerOn_eq (s : State) : applyPowerOn s = { s with
    unit := powerOnUnit s.unitNo s.draws, resetDone := false, draws := s.draws + 1 } := rfl

/-! ## One event -/

/-- Everything a step can do when it goes on: it is idle, or it runs an operation, a reset or a
power-on, the two latter answering nothing. -/
theorem runNext_cases {s t : State} (h : runNext s = .next t) :
    (s.pending = [] ∧ t = s) ∨
    (∃ x rest i, s.pending = .operation x :: rest ∧ s.resetDone = true ∧ decode x = .instr i ∧
      exec i (s.setPending rest) = .next t) ∨
    (∃ x rest why, s.pending = .operation x :: rest ∧ s.resetDone = true ∧ decode x = .illegal why ∧
      t = reportError (s.setPending rest) .illegal) ∨
    (∃ e rest, s.pending = e :: rest ∧ (e = .reset ∨ ∃ x, e = .resetDuring x) ∧ t = applyReset (s.setPending rest)) ∨
    (∃ rest, s.pending = .powerOn :: rest ∧ t = applyPowerOn (s.setPending rest)) := by
  unfold runNext at h
  split at h
  · next hp => cases h; exact .inl ⟨hp, rfl⟩
  · next e rest hp =>
    right
    cases e with
    | operation x =>
      by_cases hr : s.resetDone = true
      · simp only [runEvent, State.setPending_resetDone, hr, if_true, issue] at h
        cases hd : decode x with
        | instr i => rw [hd] at h; exact .inl ⟨x, rest, i, hp, hr, hd, h⟩
        | illegal why => rw [hd] at h; cases h; exact .inr (.inl ⟨x, rest, why, hp, hr, hd, rfl⟩)
      · simp [runEvent, hr] at h
    | reset => cases h; exact .inr (.inr (.inl ⟨_, rest, hp, .inl rfl, rfl⟩))
    | resetDuring x =>
      by_cases hr : s.resetDone = true
      · simp only [runEvent, State.setPending_resetDone, hr, if_true] at h
        cases h; exact .inr (.inr (.inl ⟨_, rest, hp, .inr ⟨x, rfl⟩, rfl⟩))
      · simp [runEvent, hr] at h
    | powerOn => cases h; exact .inr (.inr (.inr ⟨rest, hp, rfl⟩))

end Sys2Proof.Machine
end

