-- ==== Sys2Proof/Laws/ClosedForm.lean ====
section
/-! SUPPORT. The closed forms of R22, R144, R146 and R149 met by runs of PUTs: the pending bytes, the
blocks compressed into H, the last block left in BUF, and the length of the padding. -/

namespace Sys2Proof.Machine

/-! ## Pending bytes -/

@[simp] theorem pendingBytes_length (u : StreamingUnit) : (pendingBytes u).length = u.bufLen.toNat := by
  have := u.bufLen.isLt
  simp [pendingBytes]; omega

@[simp] theorem pendingBytes_setLen (u : StreamingUnit) (n : Word64) :
    pendingBytes (u.setLen n) = pendingBytes u := (rfl)

@[simp] theorem pendingBytes_setFsm (u : StreamingUnit) (f : Fsm) :
    pendingBytes (u.setFsm f) = pendingBytes u := (rfl)

theorem pendingBytes_of_empty (u : StreamingUnit) (h : u.bufLen = 0#6) : pendingBytes u = [] := by
  simp [pendingBytes, h]

/-- A PUT short of a full buffer appends the byte. -/
theorem pendingBytes_put_of_room (u : StreamingUnit) (b : Byte) (h : u.bufLen ≠ 63#6) :
    pendingBytes (put u b) = pendingBytes u ++ [b] := by
  have hp := u.bufLen.isLt
  have hne : u.bufLen.toNat ≠ 63 := fun e => h (BitVec.eq_of_toNat_eq (by simpa using e))
  have hn : (u.bufLen + 1#6).toNat = u.bufLen.toNat + 1 := by rw [BitVec.toNat_add]; simp; omega
  rw [pendingBytes, put_buf, put_bufLen, hn, pendingBytes, List.take_add_one, Vector.toList_set,
    List.take_set_of_le (Nat.le_refl _), List.getElem?_set_self (by simpa using hp)]
  rfl

/-- The byte that fills the buffer empties it. -/
theorem pendingBytes_put_of_full (u : StreamingUnit) (b : Byte) (h : u.bufLen = 63#6) :
    pendingBytes (put u b) = [] := by
  apply pendingBytes_of_empty; simp [h]

/-- The full buffer, as a block: the pending bytes and the byte that fills it. -/
theorem fullBuffer_eq (u : StreamingUnit) (b : Byte) (h : u.bufLen = 63#6) :
    u.buf.set u.bufLen.toNat b u.bufLen.isLt = blockOfBytes (pendingBytes u ++ [b]) := by
  have h63 : u.bufLen.toNat = 63 := by simp [h]
  refine Vector.ext fun k hk => ?_
  rw [Vector.getElem_set, blockOfBytes, Vector.getElem_ofFn, h63]
  rcases Nat.lt_or_ge k 63 with hlt | hge
  · rw [if_neg (by omega), List.getD_append _ _ _ _ (by simp [h63]; omega)]
    simp [pendingBytes, h63, List.getD_eq_getElem?_getD, hlt]
  · obtain rfl : k = 63 := by omega
    rw [if_pos rfl, List.getD_append_right _ _ _ _ (by simp [h63])]
    simp [h63]

/-! ## Blocks -/

theorem wholeBlocks_of_short (bs : List Byte) (h : bs.length < 64) : wholeBlocks bs = [] := by
  rw [wholeBlocks, Nat.div_eq_of_lt h]; rfl

theorem wholeBlocks_of_long (bs : List Byte) (h : 64 ≤ bs.length) :
    wholeBlocks bs = blockOfBytes (bs.take 64) :: wholeBlocks (bs.drop 64) := by
  have : bs.length / 64 = (bs.length - 64) / 64 + 1 := by omega
  rw [wholeBlocks, this, firstBlocks, wholeBlocks, List.length_drop]

/-- A first block that is exactly the head of the list. -/
theorem wholeBlocks_append (as bs : List Byte) (h : as.length = 64) :
    wholeBlocks (as ++ bs) = blockOfBytes as :: wholeBlocks bs := by
  rw [wholeBlocks_of_long _ (by simp; omega), List.take_left' h, List.drop_left' h]

@[simp] theorem compressAll_nil (h : Quad) : compressAll h [] = h := (rfl)

@[simp] theorem compressAll_cons (h : Quad) (b : Block) (bs : List Block) :
    compressAll h (b :: bs) = compressAll (compress h b) bs := (rfl)

/-! ## A run of PUTs, in closed form -/

/-- H after a run of PUTs: every whole block of the pending bytes and the new ones has been compressed. -/
theorem putAll_h (u : StreamingUnit) (bs : List Byte) :
    (putAll u bs).h = compressAll u.h (wholeBlocks (pendingBytes u ++ bs)) := by
  induction bs generalizing u with
  | nil =>
    have := u.bufLen.isLt
    rw [wholeBlocks_of_short _ (by simp; omega)]; simp
  | cons b bs ih =>
    rw [putAll_cons, ih]
    by_cases h : u.bufLen = 63#6
    · rw [pendingBytes_put_of_full _ _ h, put_h_of_full _ _ h, fullBuffer_eq _ _ h,
        show pendingBytes u ++ b :: bs = (pendingBytes u ++ [b]) ++ bs by simp,
        wholeBlocks_append (pendingBytes u ++ [b]) bs (by simp [h])]
      simp
    · rw [pendingBytes_put_of_room _ _ h, put_h_of_room _ _ h]; simp

/-- The pending bytes after a run of PUTs: what is left of the last, partial block. -/
theorem pendingBytes_putAll (u : StreamingUnit) (bs : List Byte) :
    pendingBytes (putAll u bs) =
      (pendingBytes u ++ bs).drop (64 * ((u.bufLen.toNat + bs.length) / 64)) := by
  induction bs generalizing u with
  | nil =>
    have := u.bufLen.isLt
    simp [Nat.div_eq_of_lt this]
  | cons b bs ih =>
    rw [putAll_cons, ih, put_bufLen]
    by_cases h : u.bufLen = 63#6
    · rw [pendingBytes_put_of_full _ _ h, show pendingBytes u ++ b :: bs = (pendingBytes u ++ [b]) ++ bs by simp]
      have : 64 * ((u.bufLen.toNat + (b :: bs).length) / 64) = 64 + 64 * (bs.length / 64) := by
        simp [h]; omega
      rw [this, ← List.drop_drop,
        List.drop_left' (l₁ := pendingBytes u ++ [b]) (l₂ := bs) (by simp [h])]
      simp [h]
    · have hp := u.bufLen.isLt
      have hne : u.bufLen.toNat ≠ 63 := fun e => h (BitVec.eq_of_toNat_eq (by simpa using e))
      have hn : (u.bufLen + 1#6).toNat = u.bufLen.toNat + 1 := by rw [BitVec.toNat_add]; simp; omega
      rw [pendingBytes_put_of_room _ _ h, hn]
      simp [Nat.add_assoc, Nat.add_comm 1]

/-- After a run of PUTs that ends by filling the buffer, BUF is the last whole block. -/
theorem putAll_buf_of_empty (u : StreamingUnit) (bs : List Byte) (d : Block) (hne : bs ≠ [])
    (h0 : (putAll u bs).bufLen = 0#6) :
    (putAll u bs).buf = (wholeBlocks (pendingBytes u ++ bs)).getLastD d := by
  induction bs generalizing u d with
  | nil => exact absurd rfl hne
  | cons b bs ih =>
    rw [putAll_cons] at h0 ⊢
    by_cases h : u.bufLen = 63#6
    · rw [show pendingBytes u ++ b :: bs = (pendingBytes u ++ [b]) ++ bs by simp,
        wholeBlocks_append (pendingBytes u ++ [b]) bs (by simp [h]), List.getLastD_cons]
      by_cases hb : bs = []
      · subst hb
        rw [wholeBlocks_of_short _ (by simp), putAll_nil, put_buf, fullBuffer_eq _ _ h]; rfl
      · rw [ih _ (blockOfBytes (pendingBytes u ++ [b])) hb h0, pendingBytes_put_of_full _ _ h]; simp
    · by_cases hb : bs = []
      · subst hb
        rw [putAll_nil, put_bufLen] at h0
        exact absurd (by bv_omega) h
      · rw [ih _ d hb h0, pendingBytes_put_of_room _ _ h]; simp

/-- How many compressions a run of PUTs performs. -/
theorem compressionCount_eq (u : StreamingUnit) (bs : List Byte) :
    compressionCount u bs = (u.bufLen.toNat + bs.length) / 64 := by
  induction bs generalizing u with
  | nil => have := u.bufLen.isLt; simp [compressionCount, Nat.div_eq_of_lt this]
  | cons b bs ih =>
    rw [compressionCount, ih, put_bufLen]
    have hp := u.bufLen.isLt
    by_cases h : u.bufLen = 63#6
    · simp [h]; omega
    · have hne : u.bufLen.toNat ≠ 63 := fun e => h (BitVec.eq_of_toNat_eq (by simpa using e))
      have hn : (u.bufLen + 1#6).toNat = u.bufLen.toNat + 1 := by rw [BitVec.toNat_add]; simp; omega
      rw [hn]; simp [h]; omega

/-! ## FINALIZE's padding -/

@[simp] theorem le64_length (v : Word64) : (le64 v).length = 8 := by simp [le64]

/-- `z = (55 − p) mod 64` in natural numbers. -/
theorem zeroFill_of_le (p : Nat) (h : p ≤ 55) : zeroFill p = 55 - p := by unfold zeroFill; omega

theorem zeroFill_of_gt (p : Nat) (h : 56 ≤ p) (h' : p < 64) : zeroFill p = 119 - p := by
  unfold zeroFill; omega

@[simp] theorem paddingBytes_length (p : Nat) (l : Word64) : (paddingBytes p l).length = 9 + zeroFill p := by
  simp [paddingBytes]; omega

end Sys2Proof.Machine
end

