-- ==== Sys2Proof/Laws/Packing.lean ====
section
/-! SUPPORT. Packing bytes into a vector and reading them back (R72, R73), in natural numbers. -/

namespace Sys2Proof.Machine

theorem packBytes_lt (bs : List Byte) : packBytes bs < 256 ^ bs.length := by
  induction bs with
  | nil => simp [packBytes]
  | cons b bs ih => simp [packBytes, pow_succ]; omega

/-- The k-th base-256 digit of packed bytes is byte k. -/
theorem packBytes_digit (bs : List Byte) (k : Nat) : packBytes bs / 256 ^ k % 256 = (bs.getD k 0#8).toNat := by
  induction bs generalizing k with
  | nil => simp [packBytes]
  | cons b bs ih =>
    have := b.isLt
    cases k with
    | zero => simp [packBytes]; omega
    | succ k =>
      have : packBytes (b :: bs) / 256 ^ (k + 1) = packBytes bs / 256 ^ k := by
        rw [pow_succ', ← Nat.div_div_eq_div_mul]; congr 1; simp [packBytes]; omega
      rw [this, ih]; simp

/-- Packing the base-256 digits of a number gives it back, modulo the width. -/
theorem packBytes_digits (n v : Nat) :
    packBytes ((List.range n).map fun k => BitVec.ofNat 8 (v / 256 ^ k)) = v % 256 ^ n := by
  induction n generalizing v with
  | zero => simp [packBytes, Nat.mod_one]
  | succ n ih =>
    rw [List.range_succ_eq_map, List.map_cons, List.map_map, packBytes]
    have : ((fun k => BitVec.ofNat 8 (v / 256 ^ k)) ∘ Nat.succ) =
        fun k => BitVec.ofNat 8 ((v / 256) / 256 ^ k) := by
      funext k; simp [pow_succ', Nat.div_div_eq_div_mul]
    rw [this, ih, pow_succ', Nat.mod_mul]; simp

/-- Byte k of a number held in n bits is its k-th base-256 digit. -/
theorem byteOf_ofNat (n m k : Nat) (h : 8 * k + 8 ≤ n) :
    byteOf (BitVec.ofNat n m) k = BitVec.ofNat 8 (m / 256 ^ k % 256) := by
  apply BitVec.eq_of_toNat_eq
  simp only [byteOf, BitVec.extractLsb'_toNat, BitVec.toNat_ofNat, Nat.shiftRight_eq_div_pow]
  have e : 2 ^ n = 2 ^ (8 * k) * (2 ^ 8 * 2 ^ (n - (8 * k + 8))) := by
    rw [← pow_add, ← pow_add]; congr 1; omega
  have e2 : (256 : Nat) ^ k = 2 ^ (8 * k) := by rw [pow_mul]; norm_num
  rw [e2, e, Nat.mod_mul_right_div_self, Nat.mod_mul_right_mod]; simp

end Sys2Proof.Machine
end

