-- ==== Sys2Proof/Laws/PerInstr.lean ====
section
/-! SUPPORT. Facts about every instruction as syntax, one lemma for each constructor. Family `OpSelector`:
an instruction's encoding carries the OP value that R71 gives it, and COMPRESS has no command word. -/

namespace Sys2Proof.Laws.OpSelector

/-- R71's OP value, none for COMPRESS (R72, R79). -/
def opOf : Instr → Option (BitVec 4)
  | .init => some 0x1#4
  | .absorb _ => some 0x2#4
  | .finalize => some 0x3#4
  | .compress _ _ => none

/-- The OP field of a transaction, if it is a command word. -/
def opOfTransaction : Transaction → Option (BitVec 4)
  | .command w => some (opField w)
  | .compressor _ _ => none

def Statement (i : Instr) : Prop := opOfTransaction (encode i) = opOf i

theorem init : Statement .init := by unfold Statement; decide

theorem absorb (data : Byte) : Statement (.absorb data) := by
  show some (opField (0x20000000#32 ||| data.setWidth 32)) = some 0x2#4
  rw [opField]
  congr 1
  refine BitVec.eq_of_getLsbD_eq fun k hk => ?_
  have hz : data.getLsbD (28 + k) = false := BitVec.getLsbD_of_ge _ _ (by omega)
  interval_cases k <;> simp_all

theorem finalize : Statement .finalize := by unfold Statement; decide

theorem compress (cv : Quad) (blk : Block) : Statement (.compress cv blk) := rfl

end Sys2Proof.Laws.OpSelector
end

