-- ==== Sys2Proof/Machine/Timing.lean ====
section
/-! DEFINITION. How long an operation takes (R8, R219): an open parameter of the implementation, finite
and possibly dependent on the data and on the unit's state. No step and no rule reads it. Log 9. -/

namespace Sys2Proof.Machine

/-- Clock cycles from issue to response of an instruction that starts in unit state `u` (R219: "may depend
on the data and on the buffer state"). R219 says nothing of FSM, nor whether COMPRESS depends on a unit
state it does not read: the model lets every latency depend on the operands and on the whole unit state,
FSM with it, so that a MISUSE need not take as long as an accepted command; and on nothing else, so that
neither the unit nor the occasion matters. That is its DESIGN CHOICE (log 9). -/
def latency (i : Instr) (u : StreamingUnit) : Nat :=
  match i with
  | .init => Config.latInit u.h u.buf u.bufLen u.len (decide (u.fsm = .finalized))
  | .absorb data => Config.latAbsorb data u.h u.buf u.bufLen u.len (decide (u.fsm = .finalized))
  | .finalize => Config.latFinalize u.h u.buf u.bufLen u.len (decide (u.fsm = .finalized))
  | .compress cv blk => Config.latCompress cv blk u.h u.buf u.bufLen u.len (decide (u.fsm = .finalized))

end Sys2Proof.Machine
end

