-- ==== Sys2Proof/Tests/Slice0.lean ====
section
/-! SUPPORT. The model's own tests. Expected values come from spec/95_test_vectors.md and the examples in
the rules, named at each theorem; then a witness for each statement that has hypotheses. -/

namespace Sys2Proof.Tests.Slice0

open Sys2Proof Sys2Proof.Machine

/-! ## Small states -/

/-- A unit with the given chaining state, pending bytes, LEN and FSM. -/
def unitWith (h : Quad) (bytes : List Byte) (len : Word64) (f : Fsm) : StreamingUnit :=
  { h := h, buf := blockOfBytes bytes, bufLen := BitVec.ofNat 6 bytes.length, len := len, fsm := f }

/-- The machine after reset, with another unit state. -/
def stateWith (u : StreamingUnit) : State := State.reset.setUnit u

/-- ACCEPTING with `n` pending bytes 0x61 and H = IV. -/
def acceptingWith (n : Nat) : State :=
  stateWith (unitWith iv (List.replicate n 0x61#8) (BitVec.ofNat 64 n) .accepting)

/-- FINALIZED after the empty message (95_test_vectors.md P1). -/
def finalizedState : State :=
  stateWith (unitWith ⟨0xd98c1dd4#32, 0x04b2008f#32, 0x980980e9#32, 0x7e42f8ec#32⟩ [] 0#64 .finalized)

/-- The unit after an outcome. -/
def unitAfter : Host.Outcome State Fault Refusal → Option StreamingUnit
  | .next s => some s.unit
  | _ => none

/-- The responses after an outcome. -/
def responsesAfter : Host.Outcome State Fault Refusal → List Response
  | .next s => s.responses
  | _ => []

/-! ## Well-formedness: one ill-formed spelling for each check (R82) -/

theorem test_imm8_refuses_256 : imm8Ok 256 = false := by decide
theorem test_bytes_refuse_256 : bytesOk [0, 256] = false := by decide
theorem test_blk_refuses_63_bytes : blkOk (List.replicate 63 0) = false := by decide
theorem test_blk_refuses_256 : blkOk (256 :: List.replicate 63 0) = false := by decide
theorem test_cv_refuses_3_words : cvOk [0, 0, 0] = false := by decide
theorem test_cv_refuses_33_bits : cvOk [0, 0, 0, 2 ^ 32] = false := by decide
theorem test_assembler_refuses_cv_word : assembleLine (.compress [0, 0, 0, 2 ^ 32] (List.replicate 64 0)) =
    .refused .cvShape := by decide
theorem test_assembler_refuses_blk_byte : assembleLine (.compress [0, 0, 0, 0] (256 :: List.replicate 63 0)) =
    .refused .imm8Range := by decide
theorem test_instr_well_formed : (Instr.absorb 0xff#8).wellFormed = true := by decide

/-! ## Decoding words written out from R74 (L2.5), and a Compressor transaction (R72) -/

theorem test_decode_init : decodeCommand 0b00010000000000000000000000000000#32 = .instr .init := by decide
theorem test_decode_absorb :
    decodeCommand 0b00100000000000000000000001100001#32 = .instr (.absorb 0x61#8) := by decide
theorem test_decode_finalize :
    decodeCommand 0b00110000000000000000000000000000#32 = .instr .finalize := by decide
theorem test_decode_compress :
    decode (.compressor 0x10325476_98badcfe_efcdab89_67452301#128 0x0100#512) =
      .instr (.compress iv ((Vector.replicate 64 0#8).set 1 0x01#8)) := by decide +kernel
theorem test_decode_zero_word : decodeCommand 0x00000000#32 = .illegal (.reservedOp 0x0#4) := by decide
theorem test_decode_op4 : decodeCommand 0x40000000#32 = .illegal (.reservedOp 0x4#4) := by decide
theorem test_decode_absorb_bit8 : decodeCommand 0x20000100#32 = .illegal (.mustBeZero 0x2#4) := by decide
theorem test_decode_finalize_bit23 : decodeCommand 0x30800000#32 = .illegal (.mustBeZero 0x3#4) := by decide
theorem test_table_word_absorb : decodeTableWord 32 0x200000ff = some (.absorb 0xff#8) := by decide
theorem test_table_word_compress : (decodeTableWord 0 0).isSome = true := by decide

/-! ## The Compressor's parts -/

/-- L2.1, last row. -/
theorem test_round_functions :
    roundF 0x12345678#32 0x9abcdef0#32 0x0f1e2d3c#32 = 0x1f3e7f74#32 ∧
    roundG 0x12345678#32 0x9abcdef0#32 0x0f1e2d3c#32 = 0x92b4d6f8#32 ∧
    roundH 0x12345678#32 0x9abcdef0#32 0x0f1e2d3c#32 = 0x8796a5b4#32 ∧
    roundI 0x12345678#32 0x9abcdef0#32 0x0f1e2d3c#32 = 0x6849080b#32 := by decide
/-- L2.2. -/
theorem test_rotl : rotl 0x01234567#32 22 = 0x59c048d1#32 ∧ rotl 0x89abcdef#32 23 = 0xf7c4d5e6#32 := by decide
/-- L2.3: the padded block of "abc". -/
theorem test_message_words :
    messageWord (blockOfBytes (padMessage [0x61#8, 0x62#8, 0x63#8])) 0 = 0x80636261#32 ∧
    messageWord (blockOfBytes (padMessage [0x61#8, 0x62#8, 0x63#8])) 14 = 0x00000018#32 := by decide +kernel
/-- L2.4's trace of "abc", after steps 0, 16, 32 and 48. -/
theorem test_trace :
    (roundSteps (blockOfBytes (padMessage [0x61#8, 0x62#8, 0x63#8])) iv 1).b = 0xd6d117b4#32 ∧
    (roundSteps (blockOfBytes (padMessage [0x61#8, 0x62#8, 0x63#8])) iv 17).b = 0x3e9e9126#32 ∧
    (roundSteps (blockOfBytes (padMessage [0x61#8, 0x62#8, 0x63#8])) iv 33).b = 0xb3707ebf#32 ∧
    (roundSteps (blockOfBytes (padMessage [0x61#8, 0x62#8, 0x63#8])) iv 49) =
      ⟨0x99d9679d#32, 0x7b201df8#32, 0x7beb9700#32, 0x8fae6399#32⟩ := by decide +kernel

/-- R115, rows 0 to 15: IDX, S and K of each step. -/
theorem test_schedule_round1 : ((List.range 16).map fun j =>
    (messageIndex (0 + j), rotationAmount (0 + j), kConst (0 + j))) = [
    (0, 7, 0xd76aa478#32), (1, 12, 0xe8c7b756#32), (2, 17, 0x242070db#32), (3, 22, 0xc1bdceee#32),
    (4, 7, 0xf57c0faf#32), (5, 12, 0x4787c62a#32), (6, 17, 0xa8304613#32), (7, 22, 0xfd469501#32),
    (8, 7, 0x698098d8#32), (9, 12, 0x8b44f7af#32), (10, 17, 0xffff5bb1#32), (11, 22, 0x895cd7be#32),
    (12, 7, 0x6b901122#32), (13, 12, 0xfd987193#32), (14, 17, 0xa679438e#32), (15, 22, 0x49b40821#32)] := by
  decide +kernel

/-- R115, rows 16 to 31: IDX, S and K of each step. -/
theorem test_schedule_round2 : ((List.range 16).map fun j =>
    (messageIndex (16 + j), rotationAmount (16 + j), kConst (16 + j))) = [
    (1, 5, 0xf61e2562#32), (6, 9, 0xc040b340#32), (11, 14, 0x265e5a51#32), (0, 20, 0xe9b6c7aa#32),
    (5, 5, 0xd62f105d#32), (10, 9, 0x02441453#32), (15, 14, 0xd8a1e681#32), (4, 20, 0xe7d3fbc8#32),
    (9, 5, 0x21e1cde6#32), (14, 9, 0xc33707d6#32), (3, 14, 0xf4d50d87#32), (8, 20, 0x455a14ed#32),
    (13, 5, 0xa9e3e905#32), (2, 9, 0xfcefa3f8#32), (7, 14, 0x676f02d9#32), (12, 20, 0x8d2a4c8a#32)] := by
  decide +kernel

/-- R115, rows 32 to 47: IDX, S and K of each step. -/
theorem test_schedule_round3 : ((List.range 16).map fun j =>
    (messageIndex (32 + j), rotationAmount (32 + j), kConst (32 + j))) = [
    (5, 4, 0xfffa3942#32), (8, 11, 0x8771f681#32), (11, 16, 0x6d9d6122#32), (14, 23, 0xfde5380c#32),
    (1, 4, 0xa4beea44#32), (4, 11, 0x4bdecfa9#32), (7, 16, 0xf6bb4b60#32), (10, 23, 0xbebfbc70#32),
    (13, 4, 0x289b7ec6#32), (0, 11, 0xeaa127fa#32), (3, 16, 0xd4ef3085#32), (6, 23, 0x04881d05#32),
    (9, 4, 0xd9d4d039#32), (12, 11, 0xe6db99e5#32), (15, 16, 0x1fa27cf8#32), (2, 23, 0xc4ac5665#32)] := by
  decide +kernel

/-- R115, rows 48 to 63: IDX, S and K of each step. -/
theorem test_schedule_round4 : ((List.range 16).map fun j =>
    (messageIndex (48 + j), rotationAmount (48 + j), kConst (48 + j))) = [
    (0, 6, 0xf4292244#32), (7, 10, 0x432aff97#32), (14, 15, 0xab9423a7#32), (5, 21, 0xfc93a039#32),
    (12, 6, 0x655b59c3#32), (3, 10, 0x8f0ccc92#32), (10, 15, 0xffeff47d#32), (1, 21, 0x85845dd1#32),
    (8, 6, 0x6fa87e4f#32), (15, 10, 0xfe2ce6e0#32), (6, 15, 0xa3014314#32), (13, 21, 0x4e0811a1#32),
    (4, 6, 0xf7537e82#32), (11, 10, 0xbd3af235#32), (2, 15, 0x2ad7d2bb#32), (9, 21, 0xeb86d391#32)] := by
  decide +kernel

/-! ## One step of each instruction -/

/-- L2.6, second row: INIT leaves FINALIZED. -/
theorem test_init : (unitAfter (exec .init finalizedState)).map (fun u => (u.h, u.bufLen, u.len, u.fsm)) =
    some (iv, 0#6, 0#64, .accepting) ∧
    responsesAfter (exec .init finalizedState) = [.rsp .ok none] := by decide

/-- L2.7, first row. -/
theorem test_absorb_first_byte : (unitAfter (exec (.absorb 0x61#8) (acceptingWith 0))).map
    (fun u => (u.h, u.buf[0], u.bufLen, u.len)) = some (iv, 0x61#8, 1#6, 1#64) := by decide

/-- L2.7, W1: LEN wraps and the block compresses. -/
theorem test_absorb_wraps_len : (unitAfter (exec (.absorb 0x61#8) (stateWith (unitWith iv
    (List.replicate 63 0x61#8) 0xffffffffffffffff#64 .accepting)))).map (fun u => (u.h, u.bufLen, u.len)) =
    some (⟨0x89d4ff56#32, 0x125cd962#32, 0x69cade33#32, 0x0033e325#32⟩, 0#6, 0#64) := by decide +kernel

/-- L2.8, W5: LEN bits 63..61 do not reach the length field; the digest is that of "abc". -/
theorem test_finalize_one_block : responsesAfter (exec .finalize (stateWith (unitWith iv
    [0x61#8, 0x62#8, 0x63#8] 0x2000000000000003#64 .accepting))) =
    [.rsp .ok (some 0x727fe128_7d3f96d6_b04fd23c_98500190#128)] := by decide +kernel

/-- L2.8, W3: two blocks and a truncated length field; digest b164fefa8d369b609bd62a921931604b. -/
theorem test_finalize_two_blocks : responsesAfter (exec .finalize (stateWith (unitWith iv
    (List.replicate 63 0x61#8) 0xffffffffffffffff#64 .accepting))) =
    [.rsp .ok (some 0x4b603119_922ad69b_609b368d_fafe64b1#128)] := by decide +kernel

/-- L2.4, third row: all-zero operands, in FINALIZED. -/
theorem test_compress_zero : responsesAfter (exec (.compress ⟨0, 0, 0, 0⟩ (Vector.replicate 64 0#8)) finalizedState) =
    [.cvOut 0xf90ca639_2b68d832_a5483681_f7cd1c97#128] := by decide +kernel

/-- L2.4, fourth row: all-ones operands. -/
theorem test_compress_ones :
    compress ⟨0xffffffff#32, 0xffffffff#32, 0xffffffff#32, 0xffffffff#32⟩ (Vector.replicate 64 0xff#8) =
    ⟨0x6cba9129#32, 0x29ffd12a#32, 0x8b9bb7d3#32, 0xa9a0a3c1#32⟩ := by decide +kernel

/-- L2.5 and R185: an illegal word in FINALIZED is ILLEGAL, not MISUSE. -/
theorem test_illegal_in_finalized : responsesAfter (issue (.command 0x20000100#32) finalizedState) =
    [.rsp .illegal none] := by decide

/-- R81: a comment, a quoted character, a byte list, and a line that is no line. -/
theorem test_assembler_text :
    assembleSource "INIT ; start\nABSORB 'a'\nUPDATE [98, 0x63]\nFINALIZE".toList =
      .instrs [.init, .absorb 0x61#8, .absorb 0x62#8, .absorb 0x63#8, .finalize] ∧
    assembleText "ABSORB 0x100".toList = .refused .spelling ∧
    assembleText "ABSORB 256".toList = .refused .imm8Range := by decide +kernel

/-! ## Witnesses: a state and operands that meet the hypotheses of each statement that has some -/

theorem witness_DecodeOfEncode : (Instr.absorb 0xff#8).wellFormed = true := by decide
theorem witness_EncodeOfDecode : decode (.command 0x200000ff#32) = .instr (.absorb 0xff#8) := by decide
theorem witness_IllegalWords : (0x20000100#32 : Word) ∉ legalWords ∧ (0x00000000#32 : Word) ∉ legalWords := by
  decide +kernel
theorem witness_Assembler_imm8 : 255 < 256 ∧ 255 ≤ 255 := by decide
theorem witness_Assembler_cv : ([0, 0, 0] : List Nat).length ≠ 4 := by decide
theorem witness_Assembler_blk : ([0, 0, 0, 4294967295] : List Nat).length = 4 ∧
    (∀ w ∈ ([0, 0, 0, 4294967295] : List Nat), w < 2 ^ 32) ∧ (List.replicate 63 0).length ≠ 64 ∧
    (List.replicate 64 255).length = 64 ∧ ∀ b ∈ List.replicate 64 255, b < 256 := by decide
/-- The two clauses on values out of range: a word of 2^32 and a byte of 256, each the least refused. -/
theorem witness_Assembler_values : (∃ w ∈ ([0, 0, 0, 4294967296] : List Nat), 2 ^ 32 ≤ w) ∧
    (256 :: List.replicate 63 0).length = 64 ∧ ∃ b ∈ (256 :: List.replicate 63 0), 256 ≤ b := by decide
theorem witness_PortPacking : 3 < 4 ∧ 63 < 64 ∧ 15 < 16 := by decide
theorem witness_MessageWords : ∃ blk : Block, blk[0] = 0x00#8 ∧ blk[1] = 0x01#8 ∧ blk[2] = 0x02#8 ∧ blk[3] = 0x03#8 :=
  ⟨blockOfBytes [0#8, 1#8, 2#8, 3#8], by decide⟩
theorem witness_Rotl : (1 ≤ 1 ∧ 1 ≤ 31 ∧ 0 < 32) ∧ 1 ≤ 31 ∧ 31 ≤ 31 ∧ 31 < 32 := by decide
theorem witness_StepSelection : 15 < 64 ∧ 15 / 16 = 0 ∧ 16 / 16 = 1 ∧ 31 / 16 = 1 ∧ 32 / 16 = 2 ∧ 47 / 16 = 2 ∧
    48 / 16 = 3 ∧ 63 < 64 ∧ 63 / 16 = 3 ∧ 3 < 4 := by decide
theorem witness_RotationCycle : 11 < 60 ∧ 11 / 16 = (11 + 4) / 16 ∧ 59 < 60 ∧ 59 / 16 = (59 + 4) / 16 := by decide

/-- FINALIZED, and INIT leaves it (InitGivesTheFreshUnit, third clause). -/
theorem witness_InitLeavesFinalized : finalizedState.unit.fsm = .finalized ∧
    ∃ t, exec .init finalizedState = .next t ∧ t.unit.fsm ≠ .finalized := ⟨rfl, _, rfl, by decide⟩
/-- InitGivesTheFreshUnit's second clause. -/
theorem witness_InitTwice : ∃ t t', exec .init finalizedState = .next t ∧ exec .init t = .next t' := ⟨_, _, rfl, rfl⟩
/-- The two FSM states (TransitionTable, UpdateIsTheSourcesUpdate, AbsorbRunCounts,
AbsorbRunCompressesWholeBlocks, FinalizePadsCompressesAndAnswers). -/
theorem witness_FsmStates : (acceptingWith 0).unit.fsm = .accepting ∧ finalizedState.unit.fsm = .finalized := by decide
/-- Both clauses of AbsorbStoresTheByteOrCompresses at their boundary. -/
theorem witness_Absorb : ((acceptingWith 62).unit.fsm = .accepting ∧ (acceptingWith 62).unit.bufLen ≠ 63#6) ∧
    (acceptingWith 63).unit.fsm = .accepting ∧ (acceptingWith 63).unit.bufLen = 63#6 := by decide
theorem witness_Padding : 55 < 64 ∧ 55 ≤ 55 ∧ 56 < 64 ∧ 56 ≤ 56 := by decide
/-- FinalizeCompressesOnceOrTwice at 55 and 56, and LengthFieldEndsTheFinalBlock. -/
theorem witness_Finalize : ((acceptingWith 55).unit.fsm = .accepting ∧ (acceptingWith 55).unit.bufLen.toNat ≤ 55 ∧
      ∃ t, exec .finalize (acceptingWith 55) = .next t) ∧
    (acceptingWith 56).unit.fsm = .accepting ∧ 56 ≤ (acceptingWith 56).unit.bufLen.toNat ∧
      ∃ t, exec .finalize (acceptingWith 56) = .next t :=
  ⟨⟨rfl, by decide, _, rfl⟩, rfl, by decide, _, rfl⟩
/-- The second clause of AbsorbRunCounts. -/
theorem witness_AbsorbRun64 : (List.replicate 64 (0x61#8 : Byte)).length = 64 ∧
    ∃ t, exec .init finalizedState = .next t := ⟨by decide, _, rfl⟩
theorem witness_Update : ∀ b ∈ ([0, 255] : List Nat), b < 256 := by decide
/-- DigestHasTheClosedForm: the transactions of DIGEST "a", and then a reset. -/
theorem witness_Digest : ∃ s : State, s.resetDone = true ∧
    s.pending = ((digestInstrs [0x61#8]).map fun i => .operation (encode i)) ++ [.reset] :=
  ⟨finalizedState.setPending (((digestInstrs [0x61#8]).map fun i => .operation (encode i)) ++ [.reset]), rfl, rfl⟩
/-- LenAndChainChangeOnlyWhere: LEN changes, and H changes. -/
theorem witness_LenAndChain : (∃ t, exec (.absorb 0#8) (acceptingWith 0) = .next t ∧
      t.unit.len ≠ (acceptingWith 0).unit.len) ∧
    ∃ t, exec .init finalizedState = .next t ∧ t.unit.h ≠ finalizedState.unit.h :=
  ⟨⟨_, rfl, by decide⟩, _, rfl, by decide⟩
/-- FsmMovesOnlyByFinalizeInitAndReset: into FINALIZED by FINALIZE, out of it by INIT. -/
theorem witness_FsmMoves :
    (∃ s t : State, s.resetDone = true ∧ t.resetDone = true ∧ step s = .next t ∧
      s.unit.fsm = .accepting ∧ t.unit.fsm = .finalized) ∧
    ∃ s t : State, s.resetDone = true ∧ t.resetDone = true ∧ step s = .next t ∧
      s.unit.fsm = .finalized ∧ t.unit.fsm = .accepting :=
  ⟨⟨(acceptingWith 0).setPending [.operation (.command 0x30000000#32)], _, rfl, rfl, rfl, rfl, rfl⟩,
    finalizedState.setPending [.operation (.command 0x10000000#32)], _, rfl, rfl, rfl, rfl, rfl⟩
/-- StepRunsTheDecodedInstruction, both clauses. -/
theorem witness_StepRuns : (∃ (s : State) (x : Transaction) (rest : List HostEvent), s.resetDone = true ∧
      s.pending = .operation x :: rest ∧ decode x = .instr .finalize) ∧
    decodeTableWord 32 0x30000000 = some .finalize :=
  ⟨⟨State.reset.setPending [.operation (.command 0x30000000#32)], _, _, rfl, rfl, by decide⟩, by decide⟩
theorem witness_Idle : State.reset.pending = [] := by decide
theorem witness_Reset : ∃ (s : State) (rest : List HostEvent), s.pending = .reset :: rest ∧
    ∃ t', exec .init s = .next t' := ⟨finalizedState.setPending [.reset], _, rfl, _, rfl⟩
theorem witness_ResetDuring : ∃ (s : State) (x : Transaction) (rest : List HostEvent), s.resetDone = true ∧
    s.pending = .resetDuring x :: rest :=
  ⟨finalizedState.setPending [.resetDuring (.command 0x30000000#32)], _, _, rfl, rfl⟩
/-- OperationsWaitForTheFirstReset: an operation straight after power-on, and each of the four
instructions after one reset. -/
theorem witness_PowerOn :
    (∃ (s : State) (x : Transaction) (r : List HostEvent), s.pending = .powerOn :: .operation x :: r) ∧
    ∀ i : Instr, ∃ (s : State) (r : List HostEvent), s.pending = .powerOn :: .reset :: .operation (encode i) :: r :=
  ⟨⟨State.reset.setPending [.powerOn, .operation (.command 0x10000000#32)], _, _, rfl⟩,
    fun i => ⟨State.reset.setPending [.powerOn, .reset, .operation (encode i)], _, rfl⟩⟩
theorem witness_Run : ∃ (s : State) (xs : List Transaction) (rest : List HostEvent), s.resetDone = true ∧
    s.pending = xs.map .operation ++ rest :=
  ⟨State.reset.setPending [.operation (.command 0x10000000#32), .reset], [.command 0x10000000#32], [.reset], rfl, rfl⟩
/-- StepKeepsConsistent: a state at the wrap of LEN, and a step from it. -/
theorem witness_Consistent : ∃ s t : State, s.Consistent ∧ step s = .next t :=
  ⟨(stateWith (unitWith iv (List.replicate 63 0x61#8) 0xffffffffffffffff#64 .accepting)).setPending
    [.operation (.command 0x20000061#32)], _, fun _ => rfl, rfl⟩
/-- StaleBufferCellsAreUnobservable: two units that differ in a stale cell. -/
theorem witness_Stale : ∃ s s' : State, s.SameButStale s' ∧ s ≠ s' ∧ ∃ t, step s = .next t :=
  ⟨State.reset, stateWith (unitWith iv [] 0#64 .accepting |>.setBuf (Vector.replicate 64 0xff#8)),
    ⟨⟨rfl, rfl, rfl, rfl, fun _ _ h => absurd h (Nat.not_lt_zero _)⟩, rfl, rfl, rfl, rfl, rfl⟩, by decide, _, rfl⟩
/-- StaleBufferCellsAreUnobservable's second clause: a refusal before the first reset. -/
theorem witness_StaleRefused : ∃ s : State, s.SameButStale s ∧ step s = .refused .operationBeforeReset :=
  ⟨(State.reset.setResetDone false).setPending [.operation (.command 0x10000000#32)],
    ⟨⟨rfl, rfl, rfl, rfl, fun _ _ _ => rfl⟩, rfl, rfl, rfl, rfl, rfl⟩, rfl⟩
/-- RunsDoNotDependOnBufAfterReset: a run of one operation. -/
theorem witness_RunOf : ∃ t, runOf [.command 0x20000061#32] = .next t := ⟨_, rfl⟩
/-- UnitsAreIndependent: two units and a step of each. -/
theorem witness_Units : ∃ p q q' : Platform, p.stepUnit 0 = .next q ∧ p.run [0, 1] = .next q' ∧ (0 : Nat) ≠ 1 :=
  ⟨Platform.reset 2, _, _, rfl, rfl, by decide⟩

end Sys2Proof.Tests.Slice0
end

section
/-! PROOFS of the statements about the state (10_state.md), with the laws they rest on: one equation for
each instruction and FSM state, FINALIZE's padding as one run of PUTs, and the two relations of
Safety.lean carried through every operation. -/

namespace Sys2Proof.Machine

/-! ## Each instruction, by the FSM state that guards it (R140) -/

theorem fsm_eq_finalized_of_ne_accepting {f : Fsm} (h : f ≠ .accepting) : f = .finalized := by
  cases f with
  | accepting => exact absurd rfl h
  | finalized => rfl

theorem exec_init (s : State) : exec .init s =
    .next (respondOk (s.setUnit ((((s.unit.setH iv).setBufLen 0#6).setLen 0#64).setFsm .accepting)) none) := rfl

theorem exec_compress (cv : Quad) (blk : Block) (s : State) :
    exec (.compress cv blk) s = .next (s.addResponse (.cvOut (packCv (compress cv blk)))) := rfl

theorem exec_absorb_of_accepting {s : State} (h : s.unit.fsm = .accepting) (d : Byte) :
    exec (.absorb d) s = .next (respondOk (s.setUnit (put (s.unit.setLen (s.unit.len + 1#64)) d)) none) :=
  if_pos ((acceptsInput_iff _).mpr h)

theorem exec_absorb_of_finalized {s : State} (h : s.unit.fsm = .finalized) (d : Byte) :
    exec (.absorb d) s = .next (reportError s .misuse) :=
  if_neg (by simp [h])

theorem exec_finalize_of_accepting {s : State} (h : s.unit.fsm = .accepting) :
    exec .finalize s = .next (respondOk (s.setUnit ((padAndCompress s.unit).setFsm .finalized))
      (some (packDigest (padAndCompress s.unit).h))) :=
  if_pos ((acceptsInput_iff _).mpr h)

theorem exec_finalize_of_finalized {s : State} (h : s.unit.fsm = .finalized) :
    exec .finalize s = .next (reportError s .misuse) :=
  if_neg (by simp [h])

@[simp] theorem reportError_unit (s : State) (st : Status) : (reportError s st).unit = s.unit := (rfl)
@[simp] theorem reportError_resetDone (s : State) (st : Status) :
    (reportError s st).resetDone = s.resetDone := (rfl)

/-- What an instruction that goes on from `s` has done, guard and whole next state: `exec` read as a relation. -/
inductive ExecStep (s : State) : Instr → State → Prop
  | init : ExecStep s .init
      (respondOk (s.setUnit ((((s.unit.setH iv).setBufLen 0#6).setLen 0#64).setFsm .accepting)) none)
  | absorb (d : Byte) (hf : s.unit.fsm = .accepting) : ExecStep s (.absorb d)
      (respondOk (s.setUnit (put (s.unit.setLen (s.unit.len + 1#64)) d)) none)
  | finalize (hf : s.unit.fsm = .accepting) : ExecStep s .finalize
      (respondOk (s.setUnit ((padAndCompress s.unit).setFsm .finalized))
        (some (packDigest (padAndCompress s.unit).h)))
  | misuse (i : Instr) (hf : s.unit.fsm = .finalized) (hi : (∃ d, i = .absorb d) ∨ i = .finalize) :
      ExecStep s i (reportError s .misuse)
  | compress (cv : Quad) (blk : Block) : ExecStep s (.compress cv blk)
      (s.addResponse (.cvOut (packCv (Machine.compress cv blk))))

/-- The relation holds of whatever `exec` answers. -/
theorem execStep_of_exec {i : Instr} {s t : State} (h : exec i s = .next t) : ExecStep s i t := by
  cases i with
  | init => cases h; exact .init
  | compress cv blk => cases h; exact .compress cv blk
  | absorb d =>
    by_cases hf : s.unit.fsm = .accepting
    · rw [exec_absorb_of_accepting hf] at h
      cases h; exact .absorb d hf
    · have hf := fsm_eq_finalized_of_ne_accepting hf
      rw [exec_absorb_of_finalized hf] at h
      cases h; exact .misuse _ hf (.inl ⟨d, rfl⟩)
  | finalize =>
    by_cases hf : s.unit.fsm = .accepting
    · rw [exec_finalize_of_accepting hf] at h
      cases h; exact .finalize hf
    · have hf := fsm_eq_finalized_of_ne_accepting hf
      rw [exec_finalize_of_finalized hf] at h
      cases h; exact .misuse _ hf (.inr rfl)

/-! ## FINALIZE's padding as one run of PUTs (R146) -/

theorem zeroFill_lt (p : Nat) : zeroFill p < 64 := by unfold zeroFill; omega

/-- From any BUFLEN the padding ends on a block boundary (R146). -/
theorem add_paddingBytes_length_mod (p : Nat) (l : Word64) : (p + (paddingBytes p l).length) % 64 = 0 := by
  rw [paddingBytes_length]; unfold zeroFill; omega

/-- The zero loop's turns are the zero bytes of the closed form: after 0x80 the distance to BUFLEN = 56
is `zeroFill`. -/
theorem padAndCompress_eq_putAll (u : StreamingUnit) :
    padAndCompress u = putAll u (paddingBytes u.bufLen.toNat (lengthField u.len)) := by
  have hstop : ((put u 0x80#8).bufLen.toNat + zeroFill u.bufLen.toNat) % 64 = 56 := by
    rw [put_bufLen, BitVec.toNat_add]
    unfold zeroFill
    simp; omega
  have hz := zeroFill_lt u.bufLen.toNat
  rw [padAndCompress_eq, padZeros_eq_putAll _ 64 _ hz hz.le hstop, paddingBytes, putAll_cons, putAll_append]

@[simp] theorem padAndCompress_len (u : StreamingUnit) : (padAndCompress u).len = u.len := by
  rw [padAndCompress_eq_putAll, putAll_len]

@[simp] theorem padAndCompress_fsm (u : StreamingUnit) : (padAndCompress u).fsm = u.fsm := by
  rw [padAndCompress_eq_putAll, putAll_fsm]

/-- FINALIZE leaves the buffer empty (R150). -/
@[simp] theorem padAndCompress_bufLen (u : StreamingUnit) : (padAndCompress u).bufLen = 0#6 := by
  apply BitVec.eq_of_toNat_eq
  rw [padAndCompress_eq_putAll, putAll_bufLen, add_paddingBytes_length_mod]; rfl

/-! ## The invariant between operations (R26) -/

theorem StreamingUnit.consistent_iff_of_accepting {u : StreamingUnit} (h : u.fsm = .accepting) :
    u.Consistent ↔ u.bufLen.toNat = u.len.toNat % 64 := by
  simp [StreamingUnit.Consistent, h]

theorem StreamingUnit.consistent_iff_of_finalized {u : StreamingUnit} (h : u.fsm = .finalized) :
    u.Consistent ↔ u.bufLen = 0#6 := by
  simp [StreamingUnit.Consistent, h]

/-- An empty unit that has absorbed nothing, as INIT and reset leave it. -/
theorem StreamingUnit.consistent_of_empty {u : StreamingUnit} (hf : u.fsm = .accepting)
    (hn : u.bufLen = 0#6) (hl : u.len = 0#64) : u.Consistent := by
  rw [consistent_iff_of_accepting hf, hn, hl]; rfl

/-- ABSORB moves BUFLEN and LEN together; that 64 divides 2^64 is what carries it over LEN's wrap. -/
theorem consistent_absorb {u : StreamingUnit} (hf : u.fsm = .accepting) (hc : u.Consistent) (d : Byte) :
    (put (u.setLen (u.len + 1#64)) d).Consistent := by
  rw [StreamingUnit.consistent_iff_of_accepting hf] at hc
  rw [StreamingUnit.consistent_iff_of_accepting (by simpa using hf)]
  simp [BitVec.toNat_add, hc]

theorem exec_resetDone {i : Instr} {s t : State} (h : exec i s = .next t) : t.resetDone = s.resetDone := by
  cases execStep_of_exec h with
  | _ => simp

theorem exec_keeps_consistent {i : Instr} {s t : State} (h : exec i s = .next t)
    (hc : s.unit.Consistent) : t.unit.Consistent := by
  cases execStep_of_exec h with
  | init => exact StreamingUnit.consistent_of_empty (by simp) (by simp) (by simp)
  | absorb d hf => exact consistent_absorb hf hc d
  | finalize hf => exact (StreamingUnit.consistent_iff_of_finalized (by simp)).mpr (by simp)
  | misuse => exact hc
  | compress => exact hc

theorem applyReset_consistent (s : State) : (applyReset s).Consistent := fun _ =>
  StreamingUnit.consistent_of_empty rfl rfl rfl

/-- Settles O43: every instruction keeps the invariant, reset establishes it, and after power-on, which
awaits a reset, it asks nothing. -/
theorem stepKeepsConsistent : Obligations.StepKeepsConsistent := by
  intro s t hc hstep
  rcases runNext_cases hstep with ⟨-, rfl⟩ | ⟨x, rest, i, -, hr, -, hexec⟩ | ⟨x, rest, why, -, hr, -, rfl⟩ |
    ⟨e, rest, -, -, rfl⟩ | ⟨rest, -, rfl⟩
  · exact hc
  · exact fun _ => exec_keeps_consistent hexec (hc hr)
  · exact fun _ => hc hr
  · exact applyReset_consistent _
  · intro hr
    cases hr

/-- Settles O44: the reset unit is empty and has absorbed nothing. -/
theorem resetIsConsistent : Obligations.ResetIsConsistent := fun _ =>
  StreamingUnit.consistent_of_empty rfl rfl rfl

/-! ## Where LEN, H and FSM change (R24, R21, R25) -/

theorem exec_len_change {i : Instr} {s t : State} (h : exec i s = .next t) (hne : t.unit.len ≠ s.unit.len) :
    (∃ d, i = .absorb d ∧ s.unit.fsm = .accepting ∧ t.unit.len = s.unit.len + 1#64) ∨
      (i = .init ∧ t.unit.len = 0#64) := by
  cases execStep_of_exec h with
  | init => exact .inr ⟨rfl, by simp⟩
  | absorb d hf => exact .inl ⟨d, rfl, hf, by simp⟩
  | finalize | misuse | compress => simp at hne

theorem exec_h_change {i : Instr} {s t : State} (h : exec i s = .next t) (hne : t.unit.h ≠ s.unit.h) :
    i = .init ∨ (∃ d, i = .absorb d ∧ s.unit.fsm = .accepting ∧ s.unit.bufLen = 63#6) ∨
      (i = .finalize ∧ s.unit.fsm = .accepting) := by
  cases execStep_of_exec h with
  | init => exact .inl rfl
  | absorb d hf =>
    refine .inr (.inl ⟨d, rfl, hf, ?_⟩)
    by_contra hroom
    exact hne (put_h_of_room _ _ hroom)
  | finalize hf => exact .inr (.inr ⟨rfl, hf⟩)
  | misuse | compress => simp at hne

/-- Settles O29, by the inversion of `exec`. -/
theorem lenAndChainChangeOnlyWhere : Obligations.LenAndChainChangeOnlyWhere := fun _ _ _ h =>
  ⟨exec_len_change h, exec_h_change h⟩

theorem exec_enters_finalized {i : Instr} {s t : State} (h : exec i s = .next t)
    (hs : s.unit.fsm = .accepting) (ht : t.unit.fsm = .finalized) : i = .finalize := by
  cases execStep_of_exec h with
  | finalize => rfl
  | init | absorb | misuse | compress => simp [hs] at ht

theorem exec_leaves_finalized {i : Instr} {s t : State} (h : exec i s = .next t)
    (hs : s.unit.fsm = .finalized) (ht : t.unit.fsm = .accepting) : i = .init := by
  cases execStep_of_exec h with
  | init => rfl
  | absorb | finalize | misuse | compress => simp [hs] at ht

/-- Settles O30: the events that run no instruction leave FSM alone or apply reset, and power-on leaves
reset awaited. -/
theorem fsmMovesOnlyByFinalizeInitAndReset : Obligations.FsmMovesOnlyByFinalizeInitAndReset := by
  intro s t _ hrt hstep
  rcases runNext_cases hstep with ⟨-, rfl⟩ | ⟨x, rest, i, hp, -, hd, hexec⟩ | ⟨x, rest, why, -, -, -, rfl⟩ |
    ⟨e, rest, hp, he, rfl⟩ | ⟨rest, -, rfl⟩
  · exact ⟨fun h h' => by simp [h] at h', fun h h' => by simp [h] at h'⟩
  · refine ⟨fun h h' => ?_, fun h h' => ?_⟩
    · obtain rfl := exec_enters_finalized hexec h h'
      exact ⟨x, rest, hp, hd⟩
    · obtain rfl := exec_leaves_finalized hexec h h'
      exact ⟨_, rest, hp, .inl ⟨x, rfl, hd⟩⟩
  · exact ⟨fun h h' => by simp [h] at h', fun h h' => by simp [h] at h'⟩
  · exact ⟨nofun, fun _ _ => ⟨e, rest, hp, .inr he⟩⟩
  · cases hrt

/-! ## Stale BUF cells through the operations of a unit (R22) -/

namespace StreamingUnit.SameButStale

theorem refl (u : StreamingUnit) : u.SameButStale u := ⟨rfl, rfl, rfl, rfl, fun _ _ _ => rfl⟩

variable {u v : StreamingUnit}

/-- With no pending bytes every cell is stale. -/
theorem of_empty (hh : u.h = v.h) (hn : u.bufLen = v.bufLen) (hl : u.len = v.len) (hf : u.fsm = v.fsm)
    (h0 : u.bufLen = 0#6) : u.SameButStale v :=
  ⟨hh, hn, hl, hf, fun _ _ hk => absurd hk (by simp [h0])⟩

theorem setLen (h : u.SameButStale v) (n : Word64) : (u.setLen n).SameButStale (v.setLen n) := by
  obtain ⟨hh, hn, -, hf, hb⟩ := h
  exact ⟨hh, hn, rfl, hf, hb⟩

theorem setFsm (h : u.SameButStale v) (f : Fsm) : (u.setFsm f).SameButStale (v.setFsm f) := by
  obtain ⟨hh, hn, hl, -, hb⟩ := h
  exact ⟨hh, hn, hl, rfl, hb⟩

/-- The host's view of the buffer: the pending bytes are the cells that are not stale. -/
theorem pendingBytes_eq (h : u.SameButStale v) : pendingBytes u = pendingBytes v := by
  obtain ⟨-, hn, -, -, hb⟩ := h
  refine List.ext_getElem (by simp [hn]) fun k hk _ => ?_
  rw [pendingBytes_length] at hk
  have := u.bufLen.isLt
  simpa [pendingBytes] using hb k (by omega) hk

/-- The cells up to and with the one that PUT writes agree after it. -/
theorem getElem_put (h : u.SameButStale v) (b : Byte) (k : Nat) (hk : k < 64) (hle : k ≤ u.bufLen.toNat) :
    (Machine.put u b).buf[k] = (Machine.put v b).buf[k] := by
  obtain ⟨-, hn, -, -, hb⟩ := h
  simp only [put_buf, Vector.getElem_set, ← hn]
  split
  · rfl
  · exact hb k hk (by omega)

/-- PUT reads no stale cell: it compresses only when every cell but the one it writes is pending. -/
theorem put (h : u.SameButStale v) (b : Byte) : (Machine.put u b).SameButStale (Machine.put v b) := by
  have hcell := h.getElem_put b
  obtain ⟨hh, hn, hl, hf, -⟩ := h
  by_cases hfull : u.bufLen = 63#6
  · have hbuf : (Machine.put u b).buf = (Machine.put v b).buf :=
      Vector.ext fun k hk => hcell k hk (by simp [hfull]; omega)
    refine of_empty ?_ (by simp [hn]) (by simp [hl]) (by simp [hf]) (by simp [hfull])
    rw [put_buf, put_buf] at hbuf
    rw [put_h_of_full _ _ hfull, put_h_of_full _ _ (hn ▸ hfull), hh, hbuf]
  · refine ⟨?_, by simp [hn], by simp [hl], by simp [hf], fun k hk hlt => hcell k hk ?_⟩
    · rw [put_h_of_room _ _ hfull, put_h_of_room _ _ (hn ▸ hfull), hh]
    · rw [put_bufLen, BitVec.toNat_add] at hlt
      simp at hlt; omega

theorem putAll (h : u.SameButStale v) (bs : List Byte) :
    (Machine.putAll u bs).SameButStale (Machine.putAll v bs) := by
  induction bs generalizing u v with
  | nil => exact h
  | cons b bs ih => exact ih (h.put b)

theorem padAndCompress (h : u.SameButStale v) :
    (Machine.padAndCompress u).SameButStale (Machine.padAndCompress v) := by
  have hput := h.putAll (paddingBytes u.bufLen.toNat (lengthField u.len))
  obtain ⟨-, hn, hl, -, -⟩ := h
  rwa [padAndCompress_eq_putAll, padAndCompress_eq_putAll, ← hn, ← hl]

end StreamingUnit.SameButStale

/-! ## Stale BUF cells through the events of a machine (R22) -/

namespace State.SameButStale

variable {s s' : State}

theorem unit (h : s.SameButStale s') : s.unit.SameButStale s'.unit := h.1

theorem fsm_eq (h : s.SameButStale s') : s.unit.fsm = s'.unit.fsm := by
  obtain ⟨-, -, -, hf, -⟩ := h.unit
  exact hf

theorem setUnit (h : s.SameButStale s') {u u' : StreamingUnit} (hu : u.SameButStale u') :
    (s.setUnit u).SameButStale (s'.setUnit u') := ⟨hu, h.2⟩

theorem setPending (h : s.SameButStale s') (p : List HostEvent) :
    (s.setPending p).SameButStale (s'.setPending p) := by
  obtain ⟨hu, hr, -, hrs, hd, hn⟩ := h
  exact ⟨hu, hr, rfl, hrs, hd, hn⟩

theorem setResetDone (h : s.SameButStale s') (b : Bool) :
    (s.setResetDone b).SameButStale (s'.setResetDone b) := by
  obtain ⟨hu, -, hp, hrs, hd, hn⟩ := h
  exact ⟨hu, rfl, hp, hrs, hd, hn⟩

theorem countDraw (h : s.SameButStale s') : s.countDraw.SameButStale s'.countDraw := by
  obtain ⟨hu, hr, hp, hrs, hd, hn⟩ := h
  exact ⟨hu, hr, hp, hrs, congrArg (· + 1) hd, hn⟩

theorem addResponse (h : s.SameButStale s') (r : Response) :
    (s.addResponse r).SameButStale (s'.addResponse r) := by
  obtain ⟨hu, hr, hp, hrs, hd, hn⟩ := h
  exact ⟨hu, hr, hp, congrArg (· ++ [r]) hrs, hd, hn⟩

/-- Free values are functions of the unit's number and the draw count alone (log 4). -/
theorem applyReset (h : s.SameButStale s') : (Machine.applyReset s).SameButStale (Machine.applyReset s') := by
  have ⟨_, _, _, _, hd, hn⟩ := h
  unfold Machine.applyReset
  rw [hd, hn]
  exact ((h.setUnit (.refl _)).setResetDone true).countDraw

theorem applyPowerOn (h : s.SameButStale s') :
    (Machine.applyPowerOn s).SameButStale (Machine.applyPowerOn s') := by
  have ⟨_, _, _, _, hd, hn⟩ := h
  unfold Machine.applyPowerOn
  rw [hd, hn]
  exact ((h.setUnit (.refl _)).setResetDone false).countDraw

end State.SameButStale

/-- Two outcomes of the same kind, with machines that differ at most in stale BUF cells. -/
inductive OutcomesSameButStale : Host.Outcome State Fault Refusal → Host.Outcome State Fault Refusal → Prop
  | next {t t' : State} (h : t.SameButStale t') : OutcomesSameButStale (.next t) (.next t')
  | fault (r : Fault) : OutcomesSameButStale (.fault r) (.fault r)
  | refused (r : Refusal) : OutcomesSameButStale (.refused r) (.refused r)

section
variable {s s' : State} (h : s.SameButStale s')
include h

theorem exec_sameButStale (i : Instr) : OutcomesSameButStale (exec i s) (exec i s') := by
  have hfsm := h.fsm_eq
  cases i with
  | init =>
    rw [exec_init, exec_init]
    exact .next ((h.setUnit (.of_empty (by simp) (by simp) (by simp) (by simp) (by simp))).addResponse _)
  | compress cv blk => exact .next (h.addResponse _)
  | absorb d =>
    by_cases hf : s.unit.fsm = .accepting
    · obtain ⟨-, -, hl, -, -⟩ := h.unit
      rw [exec_absorb_of_accepting hf, exec_absorb_of_accepting (hfsm ▸ hf), ← hl]
      exact .next ((h.setUnit ((h.unit.setLen _).put d)).addResponse _)
    · have hf := fsm_eq_finalized_of_ne_accepting hf
      rw [exec_absorb_of_finalized hf, exec_absorb_of_finalized (hfsm ▸ hf)]
      exact .next (h.addResponse _)
  | finalize =>
    by_cases hf : s.unit.fsm = .accepting
    · have hpad := h.unit.padAndCompress
      have ⟨hh, _⟩ := hpad
      rw [exec_finalize_of_accepting hf, exec_finalize_of_accepting (hfsm ▸ hf), ← hh]
      exact .next ((h.setUnit (hpad.setFsm _)).addResponse _)
    · have hf := fsm_eq_finalized_of_ne_accepting hf
      rw [exec_finalize_of_finalized hf, exec_finalize_of_finalized (hfsm ▸ hf)]
      exact .next (h.addResponse _)

theorem issue_sameButStale (x : Transaction) : OutcomesSameButStale (issue x s) (issue x s') := by
  unfold issue
  cases decode x with
  | instr i => exact exec_sameButStale h i
  | illegal why => exact .next (h.addResponse _)

theorem runEvent_sameButStale (e : HostEvent) : OutcomesSameButStale (runEvent e s) (runEvent e s') := by
  have ⟨_, hr, _⟩ := h
  cases e with
  | operation x =>
    simp only [runEvent, ← hr]
    split
    · exact issue_sameButStale h x
    · exact .refused _
  | reset => exact .next h.applyReset
  | resetDuring x =>
    simp only [runEvent, ← hr]
    split
    · exact .next h.applyReset
    · exact .refused _
  | powerOn => exact .next h.applyPowerOn

theorem step_sameButStale : OutcomesSameButStale (step s) (step s') := by
  have ⟨_, _, hp, _⟩ := h
  simp only [step, runNext, ← hp]
  cases s.pending with
  | nil => exact .next h
  | cons e rest => exact runEvent_sameButStale (h.setPending rest) e

end

/-- Settles O45: the two steps are related by `step_sameButStale`. -/
theorem staleBufferCellsAreUnobservable : Obligations.StaleBufferCellsAreUnobservable := by
  intro s s' h
  have hstep := step_sameButStale h
  refine ⟨fun t ht => ?_, fun r hr => ?_⟩
  · rw [ht] at hstep
    generalize step s' = o at hstep ⊢
    cases hstep with
    | next h' =>
      have ⟨_, _, _, hrs, _⟩ := h'
      exact ⟨_, rfl, h', hrs⟩
  · rw [hr] at hstep
    generalize step s' = o at hstep ⊢
    cases hstep with
    | refused => rfl

/-! ## Whole runs (R220) -/

theorem run_sameButStale (n : Nat) {s s' : State} (h : s.SameButStale s') :
    OutcomesSameButStale (Host.Core.run core n s) (Host.Core.run core n s') := by
  induction n generalizing s s' with
  | zero => exact .next h
  | succ n ih =>
    have hstep : OutcomesSameButStale (core.step s) (core.step s') := step_sameButStale h
    simp only [Host.Core.run]
    generalize core.step s = o, core.step s' = o' at hstep ⊢
    cases hstep with
    | next h' => exact ih h'
    | fault r => exact .fault r
    | refused r => exact .refused r

/-- Settles O42: BUFLEN is 0 at the start of a run, so every cell is stale there. -/
theorem runsDoNotDependOnBufAfterReset : Obligations.RunsDoNotDependOnBufAfterReset := by
  intro xs buf t ht
  have hstart : (startOfRun xs).SameButStale
      { startOfRun xs with unit := { StreamingUnit.reset with buf := buf } } :=
    ⟨.of_empty rfl rfl rfl rfl rfl, rfl, rfl, rfl, rfl, rfl⟩
  have hrun := run_sameButStale xs.length hstart
  rw [runOf] at ht
  rw [ht] at hrun
  generalize Host.Core.run core xs.length { startOfRun xs with unit := { StreamingUnit.reset with buf := buf } } = o
    at hrun ⊢
  cases hrun with
  | next h' =>
    have ⟨hu, _, _, hrs, _⟩ := h'
    have ⟨hh, hn, hl, hf, _⟩ := hu
    exact ⟨_, rfl, hrs.symm, hh.symm, hn.symm, hl.symm, hf.symm, hu.pendingBytes_eq.symm⟩

end Sys2Proof.Machine
end

section
/-! PROOFS of the statements about memory and order (20_memory.md): byte order (R50, R51, R52), then
operations run in order (R57, R61), with the laws they rest on. -/

namespace Sys2Proof.Machine

/-! ## Bytes of a bit vector -/

/-- A vector of whole bytes is known by its bytes. -/
theorem eq_of_byteOf_eq {n : Nat} {v w : BitVec (8 * n)} (h : ∀ k, k < n → byteOf v k = byteOf w k) : v = w := by
  refine BitVec.eq_of_getLsbD_eq fun i hi => ?_
  have hbit := congrArg (·.getLsbD (i % 8)) (h (i / 8) (by omega))
  simpa [byteOf, BitVec.getLsbD_extractLsb', Nat.mod_lt, Nat.div_add_mod] using hbit

/-- A byte of a field that begins on a byte boundary is a byte of the whole vector. -/
theorem byteOf_extractLsb' {n m : Nat} (v : BitVec n) (j k : Nat) (h : 8 * k + 8 ≤ m) :
    byteOf (v.extractLsb' (8 * j) m) k = byteOf v (j + k) := by
  refine BitVec.eq_of_getLsbD_eq fun i hi => ?_
  simp only [byteOf, BitVec.getLsbD_extractLsb', hi, decide_true, Bool.true_and]
  rw [decide_eq_true (show 8 * k + i < m by omega), Bool.true_and]
  congr 1; omega

/-- The fields of four vectors laid side by side, lowest first. -/
theorem extractLsb'_append_four {m : Nat} (x0 x1 x2 x3 : BitVec m) (j : Nat) (hj : j < 4) :
    (x3 ++ x2 ++ x1 ++ x0).extractLsb' (m * j) m = [x0, x1, x2, x3][j] := by
  refine BitVec.eq_of_getLsbD_eq fun i hi => ?_
  rw [BitVec.getLsbD_extractLsb', BitVec.getLsbD_append, BitVec.getLsbD_append, BitVec.getLsbD_append,
    decide_eq_true hi, Bool.true_and]
  interval_cases j
  · rw [if_pos (by omega)]; congr 1; omega
  · rw [if_neg (by omega), if_pos (by omega)]; congr 1; omega
  · rw [if_neg (by omega), if_neg (by omega), if_pos (by omega)]; congr 1; omega
  · rw [if_neg (by omega), if_neg (by omega), if_neg (by omega)]; congr 1; omega

/-- LE32's parameters are its bytes, in order (R11). -/
theorem byteOf_le32 (b0 b1 b2 b3 : Byte) (k : Nat) (hk : k < 4) :
    byteOf (le32 b0 b1 b2 b3) k = [b0, b1, b2, b3][k] := extractLsb'_append_four b0 b1 b2 b3 k hk

/-- Four bytes of a vector, in order, are its 32-bit field there. -/
theorem le32_byteOf {n : Nat} (v : BitVec n) (j : Nat) :
    le32 (byteOf v j) (byteOf v (j + 1)) (byteOf v (j + 2)) (byteOf v (j + 3)) = v.extractLsb' (8 * j) 32 := by
  refine eq_of_byteOf_eq (n := 4) fun k hk => ?_
  rw [byteOf_le32 _ _ _ _ k hk, byteOf_extractLsb' _ _ _ (by omega)]
  interval_cases k <;> rfl

/-! ## Message words (R50) -/

theorem blockByte_eq_getElem (blk : Block) (k : Nat) (hk : k < 64) : blockByte blk k = blk[k] := by
  simp [blockByte, List.getD_eq_getElem?_getD, hk]

theorem messageWord_eq_le32 (blk : Block) (j : Nat) (hj : j < 16) :
    messageWord blk j = le32 blk[4 * j] blk[4 * j + 1] blk[4 * j + 2] blk[4 * j + 3] := by
  simp only [messageWord]
  rw [blockByte_eq_getElem, blockByte_eq_getElem, blockByte_eq_getElem, blockByte_eq_getElem]

theorem byteOf_messageWord (blk : Block) (j i : Nat) (hj : j < 16) (hi : i < 4) :
    byteOf (messageWord blk j) i = blk[4 * j + i] := by
  rw [messageWord_eq_le32 _ _ hj, byteOf_le32 _ _ _ _ i hi]
  interval_cases i <;> rfl

/-- Settles O8: message word j is LE32 of its four bytes, and LE32 has the bytes it is given. -/
theorem messageWordsAreLittleEndian : Obligations.MessageWordsAreLittleEndian := by
  refine ⟨messageWord_eq_le32, byteOf_messageWord, fun blk h0 h1 h2 h3 => ?_⟩
  rw [messageWord_eq_le32 _ _ (by omega)]
  simp only [Nat.mul_zero, Nat.zero_add, h0, h1, h2, h3]
  rfl

/-! ## The digest (R52, R73) -/

theorem extractLsb'_packCv (q : Quad) (j : Nat) (hj : j < 4) :
    (packCv q).extractLsb' (32 * j) 32 = quadWord q j := by
  refine (extractLsb'_append_four q.a q.b q.c q.d j hj).trans ?_
  interval_cases j <;> rfl

theorem byteOf_packCv (q : Quad) (k : Nat) (hk : k < 16) : byteOf (packCv q) k = digestByte q k := by
  have hword := extractLsb'_packCv q (k / 4) (by omega)
  have hbyte := byteOf_extractLsb' (m := 32) (packCv q) (4 * (k / 4)) (k % 4) (by omega)
  rw [Nat.div_add_mod, ← Nat.mul_assoc, hword] at hbyte
  exact hbyte.symm

theorem digestBytes_getD (h : Quad) (k : Nat) (hk : k < 16) : (digestBytes h).getD k 0#8 = digestByte h k := by
  simp [digestBytes, List.getD_eq_getElem?_getD, hk]

theorem byteOf_packDigest (h : Quad) (k : Nat) (hk : k < 16) : byteOf (packDigest h) k = digestByte h k := by
  rw [packDigest_eq, byteOf_ofNat _ _ _ (by omega), packBytes_digit, digestBytes_getD _ _ hk,
    BitVec.ofNat_toNat, BitVec.setWidth_eq]

/-- An RSP's digest field lays the four words out as the Compressor port does (R72, R73). -/
theorem packDigest_eq_packCv (h : Quad) : packDigest h = packCv h :=
  eq_of_byteOf_eq (n := 16) fun k hk => (byteOf_packDigest h k hk).trans (byteOf_packCv h k hk).symm

/-- Settles O23: both packings of the chaining state have the digest bytes. -/
theorem digestIsTheStateLittleEndian : Obligations.DigestIsTheStateLittleEndian := fun h =>
  ⟨rfl, fun _ _ => rfl, packDigest_eq_packCv h, byteOf_packDigest h⟩

/-! ## The length field in the final block (R51) -/

/-- A run of PUTs that ends within the block stores its bytes in the cells from BUFLEN on (R22, R143). -/
theorem putAll_buf_getElem (u : StreamingUnit) (bs : List Byte) (k : Nat) (hk : k < bs.length)
    (hfit : u.bufLen.toNat + bs.length ≤ 64) : (putAll u bs).buf[u.bufLen.toNat + k] = bs[k] := by
  induction bs using List.reverseRecOn with
  | nil => cases hk
  | append_singleton bs b ih =>
    rw [List.length_append, List.length_singleton] at hk hfit
    have hp : (putAll u bs).bufLen.toNat = u.bufLen.toNat + bs.length := by
      rw [putAll_bufLen]; omega
    simp only [putAll_append, putAll_cons, putAll_nil, put_buf, Vector.getElem_set, hp, Nat.add_right_inj]
    by_cases hlast : bs.length = k
    · simp [hlast]
    · rw [if_neg hlast, ih (by omega) (by omega), List.getElem_append_left]

/-- The length field begins at BUFLEN = 56 (R145, R146). -/
theorem putAll_zeroFill_bufLen (u : StreamingUnit) :
    (putAll u (0x80#8 :: List.replicate (zeroFill u.bufLen.toNat) 0x00#8)).bufLen.toNat = 56 := by
  rw [putAll_bufLen, List.length_cons, List.length_replicate]
  unfold zeroFill; omega

theorem padAndCompress_buf_getElem (u : StreamingUnit) (k : Nat) (hk : k < 8) :
    (padAndCompress u).buf[56 + k] = byteOf (lengthField u.len) k := by
  have hsplit : padAndCompress u = putAll (putAll u (0x80#8 :: List.replicate (zeroFill u.bufLen.toNat) 0x00#8))
      (le64 (lengthField u.len)) := by
    rw [padAndCompress_eq_putAll, paddingBytes, ← List.cons_append, putAll_append]
  have hbyte := putAll_buf_getElem _ (le64 (lengthField u.len)) k (by simpa using hk)
    (by rw [putAll_zeroFill_bufLen u, le64_length])
  simp only [putAll_zeroFill_bufLen u, ← hsplit] at hbyte
  simpa [le64] using hbyte

theorem exec_finalize_buf {s t : State} (hf : s.unit.fsm = .accepting) (h : exec .finalize s = .next t) :
    t.unit.buf = (padAndCompress s.unit).buf := by
  rw [exec_finalize_of_accepting hf] at h
  cases h; simp

theorem lengthField_toNat (len : Word64) : (lengthField len).toNat = (len.toNat * 8) % 2 ^ 64 :=
  BitVec.toNat_mul _ _

/-- Settles O22: the length field is put into cells 56 to 63, and M[14] and M[15] are LE32 of those. -/
theorem lengthFieldEndsTheFinalBlock : Obligations.LengthFieldEndsTheFinalBlock := by
  intro s t hf hexec
  have hcell (k : Nat) (hk : k < 8) : t.unit.buf[56 + k] = byteOf (lengthField s.unit.len) k := by
    simp only [exec_finalize_buf hf hexec, padAndCompress_buf_getElem _ k hk]
  have hword (j : Nat) (hj : j < 2) :
      messageWord t.unit.buf (14 + j) = (lengthField s.unit.len).extractLsb' (8 * (4 * j)) 32 := by
    rw [messageWord_eq_le32 _ _ (by omega), ← le32_byteOf]
    simp only [← hcell (4 * j) (by omega), ← hcell (4 * j + 1) (by omega), ← hcell (4 * j + 2) (by omega),
      ← hcell (4 * j + 3) (by omega), Nat.mul_add, Nat.add_assoc]
  exact ⟨lengthField_toNat _, hcell, hword 0 (by omega), hword 1 (by omega)⟩

/-! ## Outcomes in sequence (R57) -/

/-- Go on with `f` from the next state; a fault or a refusal stands. -/
def andThen (o : Host.Outcome State Fault Refusal) (f : State → Host.Outcome State Fault Refusal) :
    Host.Outcome State Fault Refusal :=
  match o with
  | .next s => f s
  | .fault r => .fault r
  | .refused r => .refused r

@[simp] theorem andThen_next (s : State) (f : State → Host.Outcome State Fault Refusal) :
    andThen (.next s) f = f s := rfl

theorem andThen_assoc (o : Host.Outcome State Fault Refusal) (f g : State → Host.Outcome State Fault Refusal) :
    andThen (andThen o f) g = andThen o fun s => andThen (f s) g := by
  cases o <;> rfl

theorem execAll_cons (i : Instr) (is : List Instr) (s : State) :
    execAll (i :: is) s = andThen (exec i s) (execAll is) := rfl

theorem updateChunks_cons (c : List Byte) (cs : List (List Byte)) (s : State) :
    updateChunks (c :: cs) s = andThen (execAll (updateInstrs c) s) (updateChunks cs) := rfl

theorem issueAll_cons (x : Transaction) (xs : List Transaction) (s : State) :
    issueAll (x :: xs) s = andThen (issue x s) (issueAll xs) := rfl

theorem run_succ_of_step {n : Nat} {s t : State} (h : step s = .next t) :
    Host.Core.run core (n + 1) s = Host.Core.run core n t := by
  have hstep : core.step s = .next t := h
  simp only [Host.Core.run, hstep]

theorem execAll_append (is js : List Instr) (s : State) :
    execAll (is ++ js) s = andThen (execAll is s) (execAll js) := by
  induction is generalizing s with
  | nil => rfl
  | cons i is ih => rw [List.cons_append, execAll_cons, execAll_cons, andThen_assoc, funext ih]

/-- Settles O27: UPDATE expands byte by byte, so the expansion of a concatenation is the expansions one
after the other. -/
theorem chunkingInvariance : Obligations.ChunkingInvariance := by
  intro chunks s
  induction chunks generalizing s with
  | nil => rfl
  | cons c cs ih =>
    have hsplit : updateInstrs (c :: cs).flatten = updateInstrs c ++ updateInstrs cs.flatten := List.map_append
    rw [updateChunks_cons, hsplit, execAll_append, funext ih]

/-! ## One operation, and the events after it (R57, R76, R184) -/

theorem issue_of_instr {x : Transaction} {i : Instr} (h : decode x = .instr i) (s : State) :
    issue x s = exec i s := by
  rw [issue, h]

theorem issue_of_illegal {x : Transaction} {why : IllegalWord} (h : decode x = .illegal why) (s : State) :
    issue x s = .next (reportError s .illegal) := by
  rw [issue, h]

theorem step_of_operation {s : State} {x : Transaction} {rest : List HostEvent} (hr : s.resetDone = true)
    (hp : s.pending = .operation x :: rest) : step s = issue x (s.setPending rest) := by
  simp only [step, runNext, hp, runEvent, State.setPending_resetDone, hr, if_true]

/-- Every instruction answers a next state (R184). -/
theorem exec_completes (i : Instr) (s : State) : ∃ t, exec i s = .next t := by
  cases i with
  | init => exact ⟨_, exec_init s⟩
  | compress cv blk => exact ⟨_, exec_compress cv blk s⟩
  | absorb d =>
    cases hf : s.unit.fsm with
    | accepting => exact ⟨_, exec_absorb_of_accepting hf d⟩
    | finalized => exact ⟨_, exec_absorb_of_finalized hf d⟩
  | finalize =>
    cases hf : s.unit.fsm with
    | accepting => exact ⟨_, exec_finalize_of_accepting hf⟩
    | finalized => exact ⟨_, exec_finalize_of_finalized hf⟩

@[simp] theorem reportError_pending (s : State) (st : Status) : (reportError s st).pending = s.pending := (rfl)

theorem exec_pending {i : Instr} {s t : State} (h : exec i s = .next t) : t.pending = s.pending := by
  cases execStep_of_exec h with
  | _ => simp

@[simp] theorem setUnit_setPending (s : State) (p : List HostEvent) (u : StreamingUnit) :
    (s.setPending p).setUnit u = (s.setUnit u).setPending p := (rfl)

@[simp] theorem addResponse_setPending (s : State) (p : List HostEvent) (r : Response) :
    (s.setPending p).addResponse r = (s.addResponse r).setPending p := (rfl)

@[simp] theorem respondOk_setPending (s : State) (p : List HostEvent) (dg : Option (BitVec 128)) :
    respondOk (s.setPending p) dg = (respondOk s dg).setPending p := (rfl)

@[simp] theorem reportError_setPending (s : State) (p : List HostEvent) (st : Status) :
    reportError (s.setPending p) st = (reportError s st).setPending p := (rfl)

/-- No instruction reads or writes the events to come. -/
theorem exec_setPending {i : Instr} {s t : State} (h : exec i s = .next t) (p : List HostEvent) :
    exec i (s.setPending p) = .next (t.setPending p) := by
  cases execStep_of_exec h with
  | init => simp [exec_init]
  | absorb d hf => simp [exec_absorb_of_accepting (s := s.setPending p) hf]
  | finalize hf => simp [exec_finalize_of_accepting (s := s.setPending p) hf]
  | compress cv blk => simp [exec_compress]
  | misuse i hf hi =>
    obtain ⟨d, rfl⟩ | rfl := hi
    · simp [exec_absorb_of_finalized (s := s.setPending p) hf]
    · simp [exec_finalize_of_finalized (s := s.setPending p) hf]

/-- An operation completes whatever events are to come: it neither reads nor writes them, nor does it
undo reset. -/
theorem issue_setPending (x : Transaction) (s : State) : ∃ t : State, t.pending = s.pending ∧
    t.resetDone = s.resetDone ∧ ∀ p, issue x (s.setPending p) = .next (t.setPending p) := by
  cases hd : decode x with
  | instr i =>
    obtain ⟨t, ht⟩ := exec_completes i s
    exact ⟨t, exec_pending ht, exec_resetDone ht, fun p => (issue_of_instr hd _).trans (exec_setPending ht p)⟩
  | illegal why => exact ⟨reportError s .illegal, rfl, rfl, fun p => issue_of_illegal hd _⟩

/-- Settles O40, by induction on the transactions: each step issues the first of them, whatever others
are to come. -/
theorem runIsCompositionInIssueOrder : Obligations.RunIsCompositionInIssueOrder := by
  intro xs s rest hr hp
  induction xs generalizing s with
  | nil => subst hp; rfl
  | cons x xs ih =>
    obtain ⟨t, -, htr, hissue⟩ := issue_setPending x s
    have hstep : step s = .next (t.setPending (xs.map .operation ++ rest)) :=
      (step_of_operation hr hp).trans (hissue _)
    have hfirst : issueAll (x :: xs) (s.setPending rest) = issueAll xs (t.setPending rest) := by
      rw [issueAll_cons, hissue, andThen_next]
    have hothers : Host.Core.run core xs.length (t.setPending (xs.map .operation ++ rest)) =
        issueAll xs (t.setPending rest) := ih _ (htr.trans hr) rfl
    exact (run_succ_of_step hstep).trans (hothers.trans hfirst.symm)

/-- A word that the opcode table's numbering decodes is a transaction that decodes to the same instruction
(log 7). -/
theorem tableTransaction_of_decodeTableWord {nbits w : Nat} {i : Instr} (h : decodeTableWord nbits w = some i) :
    ∃ x, tableTransaction nbits w = some x ∧ decode x = .instr i := by
  unfold decodeTableWord at h
  cases hx : tableTransaction nbits w with
  | none => simp [hx] at h
  | some x =>
    refine ⟨x, rfl, ?_⟩
    cases hd : decode x with
    | instr j => simpa [hx, hd] using h
    | illegal why => simp [hx, hd] at h

theorem withFetchWord_of_tableTransaction {nbits w : Nat} {x : Transaction}
    (h : tableTransaction nbits w = some x) (s : State) : s.withFetchWord nbits w = issueFirst x s := by
  rw [State.withFetchWord, h]

/-- A step after an operation is put first runs it and leaves the events that were to come. -/
theorem step_issueFirst (x : Transaction) (s : State) : step (issueFirst x s) = issue x (s.setResetDone true) :=
  step_of_operation rfl rfl

/-- Settles O34: a step issues the next operation, and `withFetchWord` puts one first. -/
theorem stepRunsTheDecodedInstruction : Obligations.StepRunsTheDecodedInstruction := by
  refine ⟨fun s x rest i hr hp hd => ?_, fun s nbits w i h => ?_⟩
  · rw [step_of_operation hr hp, issue_of_instr hd]; rfl
  · obtain ⟨x, hx, hd⟩ := tableTransaction_of_decodeTableWord h
    rw [withFetchWord_of_tableTransaction hx, step_issueFirst, issue_of_instr hd]; rfl

end Sys2Proof.Machine
end

section
/-! PROOFS of the statements about encodings (30_encoding.md): the operand checks (R82), the packings of
the Compressor port (R72), the decoder as the inverse of the encoder (R74, R76), the legal words (R77),
responses (R73, R180) and the assembler (R80 to R85), with the laws they rest on. -/

namespace Sys2Proof.Machine

/-! ## The operand checks (R82) -/

@[simp] theorem imm8Ok_iff (n : Nat) : imm8Ok n = true ↔ n < 256 := by
  simp [imm8Ok]

@[simp] theorem bytesOk_iff (s : List Nat) : bytesOk s = true ↔ ∀ b ∈ s, b < 256 := by
  simp [bytesOk]

@[simp] theorem cvOk_iff (ws : List Nat) : cvOk ws = true ↔ ws.length = 4 ∧ ∀ w ∈ ws, w < 2 ^ 32 := by
  simp [cvOk]

@[simp] theorem blkOk_iff (s : List Nat) : blkOk s = true ↔ s.length = 64 ∧ ∀ b ∈ s, b < 256 := by
  simp [blkOk]

/-- The operand types are as wide as the checks ask. -/
theorem instr_wellFormed (i : Instr) : i.wellFormed = true := by
  cases i with
  | init | finalize => rfl
  | absorb data => exact (imm8Ok_iff _).mpr data.isLt
  | compress cv blk =>
    have hcv : ∀ w ∈ [cv.a.toNat, cv.b.toNat, cv.c.toNat, cv.d.toNat], w < 2 ^ 32 := by
      simp only [List.forall_mem_cons]
      exact ⟨cv.a.isLt, cv.b.isLt, cv.c.isLt, cv.d.isLt, nofun⟩
    have hblk : ∀ b ∈ blk.toList.map (·.toNat), b < 256 := by
      simp only [List.forall_mem_map]
      exact fun b _ => b.isLt
    simp only [Instr.wellFormed, Bool.and_eq_true]
    exact ⟨(cvOk_iff _).mpr ⟨rfl, hcv⟩, (blkOk_iff _).mpr ⟨by simp, hblk⟩⟩

/-! ## The Compressor port's packings (R72) -/

theorem byteOf_packBlk (blk : Block) (k : Nat) (hk : k < 64) : byteOf (packBlk blk) k = blk[k] := by
  rw [packBlk, byteOf_ofNat _ _ _ (by omega), packBytes_digit, BitVec.ofNat_toNat, BitVec.setWidth_eq]
  exact blockByte_eq_getElem blk k hk

theorem unpackBlk_getElem (v : BitVec 512) (k : Nat) (hk : k < 64) : (unpackBlk v)[k] = byteOf v k := by
  rw [unpackBlk, Vector.getElem_ofFn]; rfl

theorem quadWord_unpackCv (v : BitVec 128) (j : Nat) (hj : j < 4) :
    quadWord (unpackCv v) j = v.extractLsb' (32 * j) 32 := by
  interval_cases j <;> rfl

theorem unpackCv_packCv (q : Quad) : unpackCv (packCv q) = q :=
  quad_eq_of_words _ _ (extractLsb'_packCv q 0 (by omega)) (extractLsb'_packCv q 1 (by omega))
    (extractLsb'_packCv q 2 (by omega)) (extractLsb'_packCv q 3 (by omega))

theorem unpackBlk_packBlk (blk : Block) : unpackBlk (packBlk blk) = blk :=
  Vector.ext fun k hk => (unpackBlk_getElem _ k hk).trans (byteOf_packBlk blk k hk)

theorem packCv_unpackCv (v : BitVec 128) : packCv (unpackCv v) = v := by
  refine eq_of_byteOf_eq (n := 16) fun k hk => ?_
  have hbyte := byteOf_extractLsb' (m := 32) v (4 * (k / 4)) (k % 4) (by omega)
  rw [Nat.div_add_mod, ← Nat.mul_assoc, ← quadWord_unpackCv v _ (by omega)] at hbyte
  exact (byteOf_packCv _ k hk).trans hbyte

theorem packBlk_unpackBlk (v : BitVec 512) : packBlk (unpackBlk v) = v :=
  eq_of_byteOf_eq (n := 64) fun k hk => (byteOf_packBlk _ k hk).trans (unpackBlk_getElem v k hk)

/-- Word j of a packed block is its message word M[j] (R50, R72). -/
theorem extractLsb'_packBlk (blk : Block) (j : Nat) (hj : j < 16) :
    (packBlk blk).extractLsb' (32 * j) 32 = messageWord blk j := by
  have hword := le32_byteOf (packBlk blk) (4 * j)
  rw [byteOf_packBlk _ _ (by omega), byteOf_packBlk _ _ (by omega), byteOf_packBlk _ _ (by omega),
    byteOf_packBlk _ _ (by omega), ← Nat.mul_assoc] at hword
  exact hword.symm.trans (messageWord_eq_le32 blk j hj).symm

/-! ## Command words as numbers (R70, R74) -/

theorem opField_toNat (w : Word) : (opField w).toNat = w.toNat / 2 ^ 28 := by
  have := w.isLt
  rw [opField, BitVec.extractLsb'_toNat, Nat.shiftRight_eq_div_pow]; omega

/-- DATA lies in the 8 bits that the OP field leaves 0. -/
theorem absorbWord_toNat (data : Byte) :
    (0x20000000#32 ||| data.setWidth 32).toNat = 0x20000000 + data.toNat := by
  have hlow := Nat.two_pow_add_eq_or_of_lt data.isLt 0x200000
  rw [BitVec.toNat_or, BitVec.toNat_setWidth_of_le (by omega)]
  exact hlow.symm

/-- The upper 24 bits of a word name ABSORB exactly when the word is that of its low byte (R74). -/
theorem eq_absorbWord_iff (w : Word) (data : Byte) :
    w = 0x20000000#32 ||| data.setWidth 32 ↔ w.extractLsb' 8 24 = 0x200000#24 ∧ w.extractLsb' 0 8 = data := by
  simp only [BitVec.toNat_eq, absorbWord_toNat, BitVec.extractLsb'_toNat, Nat.shiftRight_eq_div_pow,
    BitVec.toNat_ofNat]
  have := w.isLt
  have := data.isLt
  omega

/-! ## The decoder is the encoder's inverse (R76) -/

theorem decodeCommand_eq_instr_iff (w : Word) (i : Instr) :
    decodeCommand w = .instr i ↔ .command w = encode i := by
  constructor
  · intro h
    unfold decodeCommand at h
    split at h
    · next hw => cases h; exact congrArg _ hw
    · split at h
      · next hop => cases h; exact congrArg _ ((eq_absorbWord_iff w _).mpr ⟨hop, rfl⟩)
      · split at h
        · next hw => cases h; exact congrArg _ hw
        · cases h
  · intro h
    cases i with
    | init | finalize => cases h; rfl
    | compress cv blk => cases h
    | absorb data =>
      injection h with hw
      obtain ⟨hop, hdata⟩ := (eq_absorbWord_iff w data).mp hw
      have hinit : w ≠ 0x10000000#32 := fun e => absurd hop (by rw [e]; decide)
      rw [decodeCommand, if_neg hinit, if_pos hop, hdata]

theorem decode_eq_instr_iff (x : Transaction) (i : Instr) : decode x = .instr i ↔ x = encode i := by
  cases x with
  | command w => exact decodeCommand_eq_instr_iff w i
  | compressor cvIn blkIn =>
    constructor
    · intro h
      cases h
      rw [encode, packCv_unpackCv, packBlk_unpackBlk]
    · intro h
      cases i with
      | init | absorb | finalize => cases h
      | compress cv blk =>
        cases h
        rw [decode, unpackCv_packCv, unpackBlk_packBlk]

theorem decode_encode (i : Instr) : decode (encode i) = .instr i :=
  (decode_eq_instr_iff _ i).mpr rfl

/-- Settles O1: the packings and the command words are read back as they were written. -/
theorem decodeOfEncodeIsTheInstruction : Obligations.DecodeOfEncodeIsTheInstruction :=
  ⟨instr_wellFormed, fun i _ => decode_encode i⟩

/-- Settles O2: the decoder accepts nothing but encodings. -/
theorem encodeOfDecodeIsTheTransaction : Obligations.EncodeOfDecodeIsTheTransaction := fun x i h =>
  ((decode_eq_instr_iff x i).mp h).symm

/-- COMPRESS has no command word (R72, R79). -/
theorem decodeCommand_ne_compress (w : Word) (cv : Quad) (blk : Block) :
    decodeCommand w ≠ .instr (.compress cv blk) := by
  rw [Ne, decodeCommand_eq_instr_iff]
  exact nofun

/-- Settles O7: both vectors are known by their bytes, and the transaction decodes to its COMPRESS. -/
theorem compressorPortPacking : Obligations.CompressorPortPacking := by
  have hdecode (cv : Quad) (blk : Block) := decode_encode (.compress cv blk)
  exact ⟨extractLsb'_packCv, byteOf_packBlk, extractLsb'_packBlk, hdecode, decodeCommand_ne_compress,
    fun cv blk s => issue_of_instr (hdecode cv blk) s⟩

/-! ## The legal words (R77) -/

/-- The words `legalWords` lists for ABSORB are the encodings of R74. -/
theorem ofNat_eq_setWidth_byte (d : Nat) (hd : d < 256) : BitVec.ofNat 32 d = (BitVec.ofNat 8 d).setWidth 32 :=
  BitVec.eq_of_toNat_eq (by simp; omega)

theorem mem_legalWords_iff_tests (w : Word) : w ∈ legalWords ↔
    w = 0x10000000#32 ∨ w = 0x30000000#32 ∨ w.extractLsb' 8 24 = 0x200000#24 := by
  have habsorb : (∃ d < 256, 0x20000000#32 ||| BitVec.ofNat 32 d = w) ↔ w.extractLsb' 8 24 = 0x200000#24 := by
    constructor
    · rintro ⟨d, hd, h⟩
      rw [ofNat_eq_setWidth_byte d hd] at h
      exact ((eq_absorbWord_iff w _).mp h.symm).1
    · intro h
      refine ⟨(w.extractLsb' 0 8).toNat, BitVec.isLt _, ?_⟩
      rw [BitVec.ofNat_toNat]
      exact ((eq_absorbWord_iff w _).mpr ⟨h, rfl⟩).symm
  simp only [legalWords, List.mem_cons, List.mem_map, List.mem_range, habsorb]

/-- The legal words are those that pass a test of the decoder (R76). -/
theorem mem_legalWords_iff (w : Word) : w ∈ legalWords ↔ ∃ i, decodeCommand w = .instr i := by
  rw [mem_legalWords_iff_tests]
  unfold decodeCommand
  split_ifs with hinit habsorb hfinalize
  · simp [hinit]
  · simp [habsorb]
  · simp [hfinalize]
  · simp [hinit, habsorb, hfinalize]

theorem legalWords_nodup : legalWords.Nodup := by
  have htoNat (d : Nat) (hd : d < 256) : (0x20000000#32 ||| BitVec.ofNat 32 d).toNat = 0x20000000 + d := by
    rw [ofNat_eq_setWidth_byte d hd, absorbWord_toNat, BitVec.toNat_ofNat, Nat.mod_eq_of_lt hd]
  have hne (w : Word) (hw : w.toNat < 0x20000000 ∨ 0x20000100 ≤ w.toNat) :
      w ∉ (List.range 256).map fun d => 0x20000000#32 ||| BitVec.ofNat 32 d := by
    simp only [List.mem_map, List.mem_range, not_exists, not_and]
    rintro d hd rfl
    rw [htoNat d hd] at hw
    omega
  refine List.nodup_cons.mpr ⟨?_, List.nodup_cons.mpr ⟨hne _ (.inr (by decide)), ?_⟩⟩
  · exact List.not_mem_cons_of_ne_of_not_mem (by decide) (hne _ (.inl (by decide)))
  · refine List.Nodup.map_on (fun d hd e he h => ?_) List.nodup_range
    rw [List.mem_range] at hd he
    have := congrArg BitVec.toNat h
    rw [htoNat d hd, htoNat e he] at this
    omega

/-- A word is legal exactly when its OP is defined and its "must be 0" bits are 0 (R74). -/
theorem not_mem_legalWords_iff_fields (w : Word) : w ∉ legalWords ↔
    (opField w = 0 ∨ 4 ≤ (opField w).toNat) ∨
    ((opField w = 1 ∨ opField w = 3) ∧ w.extractLsb' 0 28 ≠ 0) ∨
    (opField w = 2 ∧ w.extractLsb' 8 20 ≠ 0) := by
  rw [mem_legalWords_iff_tests]
  simp only [BitVec.toNat_eq, opField_toNat, BitVec.extractLsb'_toNat, Nat.shiftRight_eq_div_pow,
    BitVec.toNat_ofNat, BitVec.ofNat_eq_ofNat, ne_eq]
  have := w.isLt
  omega

theorem decodeCommand_eq_illegal_of_not_mem {w : Word} (h : w ∉ legalWords) :
    ∃ why, decodeCommand w = .illegal why := by
  rw [mem_legalWords_iff] at h
  cases hd : decodeCommand w with
  | instr i => exact absurd ⟨i, hd⟩ h
  | illegal why => exact ⟨why, rfl⟩

/-- An ILLEGAL answer changes nothing else, in both FSM states (R181, R186). -/
theorem issue_of_not_mem_legalWords {w : Word} (h : w ∉ legalWords) (s : State) :
    issue (.command w) s = .next (reportError s .illegal) := by
  obtain ⟨why, hd⟩ := decodeCommand_eq_illegal_of_not_mem h
  exact issue_of_illegal (x := .command w) hd s

/-- Settles O3: the decoder's three tests, read as tests of OP and of the "must be 0" bits. -/
theorem illegalWordsAreAllButTwoHundredFiftyEight : Obligations.IllegalWordsAreAllButTwoHundredFiftyEight :=
  ⟨legalWords_nodup, by simp [legalWords], mem_legalWords_iff, not_mem_legalWords_iff_fields,
    fun _ s h => issue_of_not_mem_legalWords h s⟩

/-! ## One response for each command word (R73, R180) -/

theorem Status.code_ne_three (st : Status) : st.code ≠ 3#2 := by
  cases st with
  | ok | misuse | illegal => decide

/-- Settles O31: a word is illegal or runs an instruction, and each case of `ExecStep` for an instruction
with a command word adds one RSP. -/
theorem everyCommandGetsOneResponse : Obligations.EveryCommandGetsOneResponse := by
  refine ⟨fun w s => ?_, fun cvIn blkIn s => ⟨_, rfl⟩, rfl, rfl, rfl, Status.code_ne_three⟩
  by_cases hw : w ∈ legalWords
  · obtain ⟨i, hd⟩ := (mem_legalWords_iff w).mp hw
    obtain ⟨t, ht⟩ := exec_completes i s
    have hissue : issue (.command w) s = .next t := (issue_of_instr (x := .command w) hd s).trans ht
    cases execStep_of_exec ht with
    | init => exact ⟨_, .ok, none, hissue, by simp [hw, hd]⟩
    | absorb d hf => exact ⟨_, .ok, none, hissue, by simp [hw, hd, hf]⟩
    | finalize hf =>
      refine ⟨_, .ok, some _, hissue, rfl, by simp [hw], by simp [hf], by simp, by simp [hd], ?_⟩
      rintro d ⟨⟩
      exact ⟨packDigest_eq_packCv _, byteOf_packDigest _⟩
    | misuse i hf hi =>
      refine ⟨_, .misuse, none, hissue, rfl, by simp [hw], ?_, fun _ => reportError_eq _ _, by simp, by simp⟩
      simpa [hd, hf] using hi
    | compress cv blk => exact absurd hd (decodeCommand_ne_compress w cv blk)
  · obtain ⟨why, hd⟩ := decodeCommand_eq_illegal_of_not_mem hw
    exact ⟨_, .illegal, none, issue_of_not_mem_legalWords hw s, rfl, by simp [hw], by simp [hd],
      fun _ => reportError_eq _ _, by simp, by simp⟩

/-! ## UPDATE (R83) -/

@[simp] theorem StreamingUnit.setLen_setLen (u : StreamingUnit) (m n : Word64) :
    (u.setLen m).setLen n = u.setLen n := (rfl)

@[simp] theorem StreamingUnit.setLen_self (u : StreamingUnit) : u.setLen u.len = u := (rfl)

theorem updateInstrs_cons (d : Byte) (ds : List Byte) : updateInstrs (d :: ds) = .absorb d :: updateInstrs ds := rfl

/-- PUT does not look at LEN, so that adding 1 before each byte comes to adding the count first. -/
theorem execAll_updateInstrs_of_accepting (ds : List Byte) {s : State} (h : s.unit.fsm = .accepting) :
    execAll (updateInstrs ds) s = .next { s with
      unit := putAll (s.unit.setLen (s.unit.len + BitVec.ofNat 64 ds.length)) ds
      responses := s.responses ++ List.replicate ds.length (.rsp .ok none) } := by
  induction ds generalizing s with
  | nil => simp [updateInstrs, execAll]
  | cons d ds ih =>
    have hlen : s.unit.len + 1#64 + BitVec.ofNat 64 ds.length =
        s.unit.len + BitVec.ofNat 64 (d :: ds).length := by
      rw [List.length_cons, BitVec.ofNat_add, BitVec.add_assoc, BitVec.add_comm 1#64]
    rw [updateInstrs_cons, execAll_cons, exec_absorb_of_accepting h, andThen_next, ih (by simpa using h)]
    refine congrArg _ (State.eq_of_fields _ _ ?_ rfl rfl ?_ rfl rfl)
    · simp [put_setLen, hlen]
    · simp [List.replicate_succ]

theorem execAll_updateInstrs_of_finalized (ds : List Byte) {s : State} (h : s.unit.fsm = .finalized) :
    execAll (updateInstrs ds) s = .next { s with
      responses := s.responses ++ List.replicate ds.length (.rsp .misuse none) } := by
  induction ds generalizing s with
  | nil => simp [updateInstrs, execAll]
  | cons d ds ih =>
    rw [updateInstrs_cons, execAll_cons, exec_absorb_of_finalized h, andThen_next, ih (by simpa using h)]
    simp [reportError_eq, List.replicate_succ]

theorem assembleLine_update {s : List Nat} (h : ∀ b ∈ s, b < 256) :
    assembleLine (.update s) = .instrs (s.map fun b => .absorb (BitVec.ofNat 8 b)) := by
  rw [assembleLine, if_pos ((bytesOk_iff s).mpr h), updateInstrs, bytesOfNats, List.map_map]; rfl

/-- Settles O26: a run of ABSORBs in either FSM state, by induction on its bytes. -/
theorem updateIsTheSourcesUpdate : Obligations.UpdateIsTheSourcesUpdate :=
  ⟨fun ds _ h => execAll_updateInstrs_of_accepting ds h, fun ds _ h => execAll_updateInstrs_of_finalized ds h,
    fun _ => rfl, fun _ h => assembleLine_update h⟩

/-! ## Operands that the assembler takes and refuses (R81, R82) -/

theorem assembleLine_absorb_of_lt {n : Nat} (h : n < 256) :
    assembleLine (.absorb n) = .instrs [.absorb (BitVec.ofNat 8 n)] :=
  if_pos ((imm8Ok_iff n).mpr h)

theorem assembleLine_absorb_of_ge {n : Nat} (h : 256 ≤ n) : assembleLine (.absorb n) = .refused .imm8Range :=
  if_neg (by simpa using h)

theorem assembleLine_compress_of_not_cvOk {cv : List Nat} (hcv : ¬cvOk cv = true) (blk : List Nat) :
    assembleLine (.compress cv blk) = .refused .cvShape := by
  simp [assembleLine, hcv]

theorem assembleLine_compress_of_length_ne {cv blk : List Nat} (hcv : cvOk cv = true) (hlen : blk.length ≠ 64) :
    assembleLine (.compress cv blk) = .refused .blkLength := by
  simp [assembleLine, hcv, hlen]

theorem assembleLine_compress_of_not_bytesOk {cv blk : List Nat} (hcv : cvOk cv = true) (hlen : blk.length = 64)
    (hblk : ¬bytesOk blk = true) : assembleLine (.compress cv blk) = .refused .imm8Range := by
  simp [assembleLine, hcv, hlen, hblk]

theorem assembleLine_compress_of_ok {cv blk : List Nat} (hcv : cvOk cv = true) (hlen : blk.length = 64)
    (hblk : bytesOk blk = true) : assembleLine (.compress cv blk) =
      .instrs [.compress (quadOfNats cv) (blockOfBytes (bytesOfNats blk))] := by
  simp [assembleLine, hcv, hlen, hblk]

/-- A checked `cv` is spelled in whole words, so that taking them to 32 bits loses nothing. -/
theorem quadOfNats_toNat {ws : List Nat} (h : cvOk ws = true) :
    [(quadOfNats ws).a.toNat, (quadOfNats ws).b.toNat, (quadOfNats ws).c.toNat, (quadOfNats ws).d.toNat] = ws := by
  obtain ⟨hlen, hws⟩ := (cvOk_iff ws).mp h
  obtain ⟨a, b, c, d, rfl⟩ := List.length_eq_four.mp hlen
  simp only [List.forall_mem_cons] at hws
  obtain ⟨ha, hb, hc, hd, -⟩ := hws
  simpa [quadOfNats] using ⟨ha, hb, hc, hd⟩

/-- A checked `blk` is spelled in whole bytes, so that taking them to 8 bits loses nothing. -/
theorem blockOfBytes_bytesOfNats_toNat {s : List Nat} (hlen : s.length = 64) (h : ∀ b ∈ s, b < 256) :
    (blockOfBytes (bytesOfNats s)).toList.map (·.toNat) = s := by
  refine List.ext_getElem (by simp [hlen]) fun k hk hk' => ?_
  simp [blockOfBytes, bytesOfNats, List.getD_eq_getElem?_getD, hk', Nat.mod_eq_of_lt (h _ (List.getElem_mem hk'))]

/-- Settles O6: each check of R82 in the order in which the assembler makes them. -/
theorem assemblerRefusesExactlyTheBadOperands : Obligations.AssemblerRefusesExactlyTheBadOperands := by
  refine ⟨fun n => ⟨assembleLine_absorb_of_ge, fun h => assembleLine_absorb_of_lt (by omega)⟩,
    fun cv blk hlen => ?_, fun cv blk hlen hcv hblk => ?_, fun cv blk hcv => ?_,
    fun cv blk hlen hcv hblk hbad => ?_, fun cv blk hlen hcv hblk hbytes => ?_, fun _ => rfl⟩
  · exact assembleLine_compress_of_not_cvOk (fun h => hlen ((cvOk_iff cv).mp h).1) blk
  · exact assembleLine_compress_of_length_ne ((cvOk_iff cv).mpr ⟨hlen, hcv⟩) hblk
  · obtain ⟨w, hw, hbig⟩ := hcv
    exact assembleLine_compress_of_not_cvOk (fun h => hbig.not_gt (((cvOk_iff cv).mp h).2 w hw)) blk
  · obtain ⟨b, hb, hbig⟩ := hbad
    exact assembleLine_compress_of_not_bytesOk ((cvOk_iff cv).mpr ⟨hlen, hcv⟩) hblk
      fun h => hbig.not_gt ((bytesOk_iff blk).mp h b hb)
  · have hok : cvOk cv = true := (cvOk_iff cv).mpr ⟨hlen, hcv⟩
    exact ⟨_, _, assembleLine_compress_of_ok hok hblk ((bytesOk_iff blk).mpr hbytes), quadOfNats_toNat hok,
      blockOfBytes_bytesOfNats_toNat hblk hbytes⟩

/-! ## Examples (R85, 95_test_vectors.md L2.5) -/

/-- Settles O4: each word is written out. -/
theorem sampleWordsDecode : Obligations.SampleWordsDecode := by
  unfold Obligations.SampleWordsDecode
  decide

/-- Settles O5: each line is written out. -/
theorem encodingExamplesAssemble : Obligations.EncodingExamplesAssemble := by
  unfold Obligations.EncodingExamplesAssemble
  decide

end Sys2Proof.Machine
end

section
/-! PROOFS of the statements about the Compressor (40_compressor.md): COMPRESS as 64 steps and the
feed-forward (R110 to R113), the round functions (R100 to R103), rotation (R104), what each step selects
(R105, R107) and the rotation amounts (R109), with the laws they rest on. -/

namespace Sys2Proof.Machine

/-! ## COMPRESS (R110 to R113) -/

/-- The worked example of R112: IV and the padded block of "abc". -/
theorem compress_iv_abcBlock : compress ⟨0x67452301#32, 0xefcdab89#32, 0x98badcfe#32, 0x10325476#32⟩
    (blockOfBytes ([0x61#8, 0x62#8, 0x63#8, 0x80#8] ++ List.replicate 52 0#8 ++ (0x18#8 :: List.replicate 7 0#8))) =
    ⟨0x98500190#32, 0xb04fd23c#32, 0x7d3f96d6#32, 0x727fe128#32⟩ := by decide +kernel

/-- Settles O13: the working variables after `i` steps are `roundSteps blk cv i`. -/
theorem compressRunsSixtyFourStepsAndAdds : Obligations.CompressRunsSixtyFourStepsAndAdds := by
  refine ⟨fun cv blk s => ⟨roundSteps blk cv, rfl, fun i _ => roundSteps_succ blk cv i, ?_⟩, compress_iv_abcBlock⟩
  rw [exec_compress, compress_eq]
  rfl

/-! ## The round functions (R100 to R103) -/

section
variable (b c d : Word) {k : Nat} (hk : k < 32)
include hk

theorem roundF_getLsbD :
    (roundF b c d).getLsbD k = if b.getLsbD k then c.getLsbD k else d.getLsbD k := by
  simp only [roundF, BitVec.getLsbD_or, BitVec.getLsbD_and, BitVec.getLsbD_not, hk, decide_true, Bool.true_and]
  cases b.getLsbD k <;> simp

theorem roundG_getLsbD :
    (roundG b c d).getLsbD k = if d.getLsbD k then b.getLsbD k else c.getLsbD k := by
  simp only [roundG, BitVec.getLsbD_or, BitVec.getLsbD_and, BitVec.getLsbD_not, hk, decide_true, Bool.true_and]
  cases d.getLsbD k <;> simp

theorem roundI_getLsbD :
    (roundI b c d).getLsbD k = (c.getLsbD k ^^ (b.getLsbD k || !d.getLsbD k)) := by
  simp [roundI, hk]

end

theorem roundH_getLsbD (b c d : Word) (k : Nat) :
    (roundH b c d).getLsbD k = ((b.getLsbD k ^^ c.getLsbD k) ^^ d.getLsbD k) := by
  simp [roundH]

/-- Settles O9: the formulas are the definitions, each bit by its law, and the examples are closed. -/
theorem roundFunctionsBitByBit : Obligations.RoundFunctionsBitByBit :=
  ⟨fun _ _ _ => ⟨rfl, rfl, rfl, rfl⟩,
    fun b c d k hk => ⟨roundF_getLsbD b c d hk, roundG_getLsbD b c d hk, roundH_getLsbD b c d k,
      roundI_getLsbD b c d hk⟩,
    by decide, by decide, by decide⟩

/-! ## Rotation (R104) -/

theorem rotl_eq_rotateLeft (x : Word) {s : Nat} (hs : s < 32) : rotl x s = x.rotateLeft s := by
  rw [BitVec.rotateLeft, Nat.mod_eq_of_lt hs]
  rfl

theorem rotl_getLsbD (x : Word) {s k : Nat} (hs : s < 32) (hk : k < 32) :
    (rotl x s).getLsbD k = x.getLsbD ((k + 32 - s) % 32) := by
  rw [rotl_eq_rotateLeft x hs, BitVec.getLsbD_rotateLeft, Nat.mod_eq_of_lt hs]
  by_cases h : k < s
  · rw [decide_eq_true h, cond_true, show (k + 32 - s) % 32 = 32 - s + k by omega]
  · rw [decide_eq_false h, cond_false, decide_eq_true hk, Bool.true_and,
      show (k + 32 - s) % 32 = k - s by omega]

@[simp] theorem rotl_zero (x : Word) : rotl x 0 = x := by
  simp [rotl, BitVec.ushiftRight_eq_zero]

@[simp] theorem rotl_thirtyTwo (x : Word) : rotl x 32 = x := by
  simp [rotl]

/-- Settles O10: `rotl` is the library's rotation, whose bits are known. -/
theorem rotlMovesEachBit : Obligations.RotlMovesEachBit :=
  ⟨fun x _ _ _ hs hk => ⟨rfl, rotl_getLsbD x (Nat.lt_succ_of_le hs) hk⟩,
    fun x => ⟨rotl_zero x, rotl_thirtyTwo x⟩, by decide, by decide, by decide⟩

/-! ## What each step selects (R105, R107) -/

section
variable {i : Nat}

theorem roundFn_of_round0 (h : i / 16 = 0) : roundFn i = roundF := by simp [funext_iff, roundFn, h]
theorem roundFn_of_round1 (h : i / 16 = 1) : roundFn i = roundG := by simp [funext_iff, roundFn, h]
theorem roundFn_of_round2 (h : i / 16 = 2) : roundFn i = roundH := by simp [funext_iff, roundFn, h]
theorem roundFn_of_round3 (h : i / 16 = 3) : roundFn i = roundI := by simp [funext_iff, roundFn, h]

theorem messageIndex_of_round0 (h : i / 16 = 0) : messageIndex i = i % 16 := by simp [messageIndex, h]
theorem messageIndex_of_round1 (h : i / 16 = 1) : messageIndex i = (5 * i + 1) % 16 := by simp [messageIndex, h]
theorem messageIndex_of_round2 (h : i / 16 = 2) : messageIndex i = (3 * i + 5) % 16 := by simp [messageIndex, h]
theorem messageIndex_of_round3 (h : i / 16 = 3) : messageIndex i = 7 * i % 16 := by simp [messageIndex, h]

end

/-- Each round visits every message word once (R107). -/
theorem messageIndex_perm : ∀ r : Nat, r < 4 →
    ((List.range 16).map fun j => messageIndex (16 * r + j)).Perm (List.range 16) := by
  decide

/-- Settles O11: a case for each round; `i` and `i mod 16` give the same index, which is taken mod 16. -/
theorem stepSelectsFunctionAndMessageWord : Obligations.StepSelectsFunctionAndMessageWord := by
  refine ⟨fun i b c d _ => ⟨fun h => ?_, fun h => ?_, fun h => ?_, fun h => ?_⟩, messageIndex_perm⟩
  · rw [roundFn_of_round0 h, messageIndex_of_round0 h]
    exact ⟨rfl, rfl, by omega⟩
  · rw [roundFn_of_round1 h, messageIndex_of_round1 h]
    exact ⟨rfl, rfl, by omega⟩
  · rw [roundFn_of_round2 h, messageIndex_of_round2 h]
    exact ⟨rfl, rfl, by omega⟩
  · rw [roundFn_of_round3 h, messageIndex_of_round3 h]
    exact ⟨rfl, rfl, by omega⟩

/-! ## Rotation amounts (R109) -/

/-- R109's table, row by row. -/
theorem rotationRow_eq_getD {r : Nat} (h : r < 4) : rotationRow r =
    [[7, 12, 17, 22], [5, 9, 14, 20], [4, 11, 16, 23], [6, 10, 15, 21]].getD r [] := by
  interval_cases r <;> rfl

theorem rotationRow_length (r : Nat) : (rotationRow r).length = 4 := by
  unfold rotationRow
  split <;> rfl

theorem mem_rotationRow_bounds (r : Nat) : ∀ n ∈ rotationRow r, 4 ≤ n ∧ n ≤ 23 := by
  unfold rotationRow
  split <;> decide

theorem rotationAmount_mem_rotationRow (i : Nat) : rotationAmount i ∈ rotationRow (i / 16) := by
  have hlt : i % 4 < (rotationRow (i / 16)).length := by
    rw [rotationRow_length]
    exact Nat.mod_lt _ (by decide)
  rw [rotationAmount, List.getD_eq_getElem _ _ hlt]
  exact List.getElem_mem hlt

/-- Settles O12: each amount is read from its round's row by the step mod 4. -/
theorem rotationAmountsCycleInEachRound : Obligations.RotationAmountsCycleInEachRound := by
  refine ⟨fun i hi => ?_, fun i _ hr => ?_, fun i _ => ?_⟩
  · rw [rotationAmount, rotationRow_eq_getD (by omega)]
  · rw [rotationAmount, rotationAmount, ← hr, Nat.add_mod_right]
  · exact mem_rotationRow_bounds _ _ (rotationAmount_mem_rotationRow i)

end Sys2Proof.Machine
end

section
/-! PROOFS of the statements about the Streaming unit (41_streaming.md): the transition table (R140 to
R142), runs of ABSORBs (R143, R144), FINALIZE's padding and blocks (R145 to R148) and the digest of a
whole message (R149), with the laws they rest on. -/

namespace Sys2Proof.Machine

/-! ## The transition table, cell by cell (R140 to R142) -/

/-- The unit right after INIT: BUF is as before (R141). -/
def freshUnit (u : StreamingUnit) : StreamingUnit := (((u.setH iv).setBufLen 0#6).setLen 0#64).setFsm .accepting

@[simp] theorem freshUnit_h (u : StreamingUnit) : (freshUnit u).h = iv := (rfl)
@[simp] theorem freshUnit_bufLen (u : StreamingUnit) : (freshUnit u).bufLen = 0#6 := (rfl)
@[simp] theorem freshUnit_len (u : StreamingUnit) : (freshUnit u).len = 0#64 := (rfl)
@[simp] theorem freshUnit_fsm (u : StreamingUnit) : (freshUnit u).fsm = .accepting := (rfl)

theorem exec_init_eq_freshUnit (s : State) : exec .init s = .next (respondOk (s.setUnit (freshUnit s.unit)) none) := rfl

/-- Settles O15: INIT writes four fields and reads none of them, and the other instructions keep FINALIZED. -/
theorem initGivesTheFreshUnit : Obligations.InitGivesTheFreshUnit := by
  refine ⟨exec_init, fun s t t' h h' => ?_, fun i s t hs h ht => ?_⟩
  · rw [exec_init_eq_freshUnit] at h h'
    cases h
    cases h'
    rfl
  · cases hf : t.unit.fsm with
    | accepting => exact exec_leaves_finalized h hs hf
    | finalized => exact absurd hf ht

/-- An accepted ABSORB in fields, for a named unit `u`, so that the kernel never compares two units. -/
theorem exec_absorb_of_put {s : State} (hf : s.unit.fsm = .accepting) {d : Byte} {u : StreamingUnit}
    (hput : put (s.unit.setLen (s.unit.len + 1#64)) d = u) :
    exec (.absorb d) s = .next { s with unit := u, responses := s.responses ++ [.rsp .ok none] } := by
  subst hput
  exact exec_absorb_of_accepting hf d

/-- Settles O16: the six cells are the equations of `exec` in each FSM state. -/
theorem transitionTable : Obligations.TransitionTable :=
  ⟨exec_init,
    fun _ hf => ⟨fun d => ⟨(put_fsm _ d).trans hf, exec_absorb_of_put hf rfl⟩, exec_finalize_of_accepting hf⟩,
    fun _ hf => ⟨exec_absorb_of_finalized hf, exec_finalize_of_finalized hf⟩⟩

theorem put_setLen_of_room {u : StreamingUnit} (h : u.bufLen ≠ 63#6) (n : Word64) (d : Byte) :
    put (u.setLen n) d = { u with
      buf := u.buf.set u.bufLen.toNat d u.bufLen.isLt
      bufLen := u.bufLen + 1#6
      len := n } := by
  rw [put_setLen, put_of_room _ _ h]; rfl

theorem put_setLen_of_full {u : StreamingUnit} (h : u.bufLen = 63#6) (n : Word64) (d : Byte) :
    put (u.setLen n) d = { u with
      h := compress u.h (u.buf.set 63 d)
      buf := u.buf.set 63 d
      bufLen := 0#6
      len := n } := by
  rw [put_setLen]
  apply StreamingUnit.eq_of_fields
  case h1 => simp [put_h_of_full _ _ h, h]
  case h2 | h3 => simp [h]
  case h4 | h5 => simp

/-- Settles O17: ABSORB counts the byte and PUTs it, and PUT either has room or fills the block. -/
theorem absorbStoresTheByteOrCompresses : Obligations.AbsorbStoresTheByteOrCompresses :=
  ⟨fun d _ hf => exec_absorb_of_finalized hf d, fun d _ hf =>
    ⟨fun hroom => exec_absorb_of_put hf (put_setLen_of_room hroom _ d),
      fun hfull => exec_absorb_of_put hf (put_setLen_of_full hfull _ d)⟩⟩

/-! ## Runs of ABSORBs (R143, R144) -/

/-- Settles O24: a run of ABSORBs is a run of PUTs, which count modulo 64. -/
theorem absorbRunCounts : Obligations.AbsorbRunCounts := by
  refine ⟨fun ds s hf => ?_, fun ds s t0 hlen hinit => ?_⟩
  · refine ⟨_, execAll_updateInstrs_of_accepting ds hf, ?_, ?_, ?_⟩
    · rw [compressionCount_eq, StreamingUnit.setLen_bufLen]
    · rw [putAll_bufLen, StreamingUnit.setLen_bufLen]
    · rw [putAll_len, StreamingUnit.setLen_len]
  · rw [exec_init_eq_freshUnit] at hinit
    cases hinit
    refine ⟨_, execAll_updateInstrs_of_accepting ds (by simp), ?_, BitVec.eq_of_toNat_eq ?_, ?_⟩
    · simp [compressionCount_eq, hlen]
    · simp [putAll_bufLen, hlen]
    · simp [hlen]

/-- Settles O25, by the closed form of a run of PUTs. -/
theorem absorbRunCompressesWholeBlocks : Obligations.AbsorbRunCompressesWholeBlocks := by
  intro ds s hf
  refine ⟨_, execAll_updateInstrs_of_accepting ds hf, ?_, ?_⟩
  · rw [putAll_h, pendingBytes_setLen, StreamingUnit.setLen_h]
  · rw [pendingBytes_putAll, pendingBytes_setLen, StreamingUnit.setLen_bufLen]

/-! ## The length field (R148) -/

theorem lengthField_ofNat (n : Nat) : lengthField (BitVec.ofNat 64 n) = BitVec.ofNat 64 (8 * n) := by
  rw [lengthField, ← BitVec.ofNat_mul, Nat.mul_comm]

theorem lengthField_eq_append (len : Word64) : lengthField len = len.extractLsb' 0 61 ++ 0#3 := by
  apply BitVec.eq_of_toNat_eq
  rw [lengthField_toNat, BitVec.toNat_append, BitVec.extractLsb'_toNat]
  simp [Nat.shiftLeft_eq]
  omega

/-- Adding 2^61 bytes adds 2^64 bits. -/
theorem lengthField_add_two_pow (len : Word64) :
    lengthField (len + 0x2000000000000000#64) = lengthField len := by
  simp [lengthField, BitVec.add_mul]

/-- Settles O21: multiplication by 8 is a shift by three bits. -/
theorem lengthFieldWraps : Obligations.LengthFieldWraps := fun len =>
  ⟨lengthField_toNat len, lengthField_eq_append len, lengthField_add_two_pow len⟩

/-! ## FINALIZE's padding (R146, R147) -/

/-- The padding looks at BUFLEN modulo 64 only, so that a message's length may stand in its place (R149). -/
theorem paddingBytes_mod (n : Nat) (l : Word64) : paddingBytes (n % 64) l = paddingBytes n l := by
  have hz : zeroFill (n % 64) = zeroFill n := by unfold zeroFill; omega
  rw [paddingBytes, paddingBytes, hz]

theorem paddingBytes_of_le {p : Nat} (h : p ≤ 55) (l : Word64) :
    paddingBytes p l = 0x80#8 :: (List.replicate (55 - p) 0x00#8 ++ le64 l) := by
  rw [paddingBytes, zeroFill_of_le p h]

/-- Past 55 pending bytes the zero bytes run over into a second block. -/
theorem paddingBytes_of_gt {p : Nat} (h : 56 ≤ p) (h' : p < 64) (l : Word64) :
    paddingBytes p l =
      (0x80#8 :: List.replicate (63 - p) 0x00#8) ++ (List.replicate 56 0x00#8 ++ le64 l) := by
  have hz : zeroFill p = (63 - p) + 56 := by rw [zeroFill_of_gt p h h']; omega
  rw [paddingBytes, hz, List.replicate_add, List.cons_append, List.append_assoc]

theorem padZeros_eq_putAll_zeroFill (u : StreamingUnit) : padZeros 64 (put u 0x80#8) =
    putAll u (0x80#8 :: List.replicate (zeroFill u.bufLen.toNat) 0x00#8) := by
  have hstop := putAll_zeroFill_bufLen u
  have hz := zeroFill_lt u.bufLen.toNat
  rw [putAll_cons, putAll_bufLen, List.length_replicate] at hstop
  exact padZeros_eq_putAll _ 64 _ hz hz.le hstop

/-- Settles O19: the zero loop is a run of `zeroFill` zero bytes, and their number is `55 - p` or
`119 - p`. -/
theorem paddingLayout : Obligations.PaddingLayout := by
  refine ⟨fun u => ⟨padAndCompress_eq_putAll u, padZeros_eq_putAll_zeroFill u, ?_⟩, fun p l hp => ?_⟩
  · rw [padZeros_eq_putAll_zeroFill]
    exact BitVec.eq_of_toNat_eq (putAll_zeroFill_bufLen u)
  · have hz := zeroFill_lt p
    refine ⟨paddingBytes_length p l, by omega, by omega, fun hle => ?_, fun hgt => ?_⟩
    · rw [zeroFill_of_le p hle]; omega
    · rw [zeroFill_of_gt p hgt hp]; omega

/-! ## FINALIZE's blocks (R145, R147) -/

/-- H after FINALIZE's padding, by the block-by-block form of a run of PUTs. -/
theorem padAndCompress_h (u : StreamingUnit) : (padAndCompress u).h = compressAll u.h
    (wholeBlocks (pendingBytes u ++ paddingBytes u.bufLen.toNat (lengthField u.len))) := by
  rw [padAndCompress_eq_putAll, putAll_h]

/-- The padding ends by filling the buffer, which then holds the last block. -/
theorem padAndCompress_buf (u : StreamingUnit) (d : Block) : (padAndCompress u).buf =
    (wholeBlocks (pendingBytes u ++ paddingBytes u.bufLen.toNat (lengthField u.len))).getLastD d := by
  have h0 := padAndCompress_bufLen u
  rw [padAndCompress_eq_putAll] at h0 ⊢
  exact putAll_buf_of_empty u _ d (List.cons_ne_nil _ _) h0

/-- Settles O18: FINALIZE's five fields are those of `padAndCompress`, each in closed form. -/
theorem finalizePadsCompressesAndAnswers : Obligations.FinalizePadsCompressesAndAnswers := by
  intro s hf
  rw [exec_finalize_of_accepting hf, ← padAndCompress_h]
  refine congrArg _ (State.eq_of_fields _ _ (StreamingUnit.eq_of_fields _ _ ?_ ?_ ?_ ?_ ?_) rfl rfl rfl rfl rfl)
  · rfl
  · exact padAndCompress_buf s.unit s.unit.buf
  · exact padAndCompress_bufLen s.unit
  · exact padAndCompress_len s.unit
  · rfl

theorem wholeBlocks_of_length_eq {bs : List Byte} (h : bs.length = 64) : wholeBlocks bs = [blockOfBytes bs] := by
  have hsplit := wholeBlocks_append bs [] h
  rwa [List.append_nil, wholeBlocks_of_short [] (by simp)] at hsplit

/-- With room for the length field behind 0x80, the padding ends the block that is pending. -/
theorem padAndCompress_h_of_le {u : StreamingUnit} (h : u.bufLen.toNat ≤ 55) :
    (padAndCompress u).h = compress u.h (blockOfBytes (pendingBytes u ++
      (0x80#8 :: (List.replicate (55 - u.bufLen.toNat) 0x00#8 ++ le64 (lengthField u.len))))) := by
  rw [padAndCompress_h, paddingBytes_of_le h, wholeBlocks_of_length_eq (by simp; omega)]
  rfl

/-- With no such room, the padding fills the pending block and a second one. -/
theorem padAndCompress_h_of_gt {u : StreamingUnit} (h : 56 ≤ u.bufLen.toNat) :
    (padAndCompress u).h = compress
      (compress u.h (blockOfBytes (pendingBytes u ++
        (0x80#8 :: List.replicate (63 - u.bufLen.toNat) 0x00#8))))
      (blockOfBytes (List.replicate 56 0x00#8 ++ le64 (lengthField u.len))) := by
  have hp := u.bufLen.isLt
  rw [padAndCompress_h, paddingBytes_of_gt h hp, ← List.append_assoc, wholeBlocks_append _ _ (by simp; omega),
    wholeBlocks_of_length_eq (by simp)]
  rfl

theorem exec_finalize_h {s t : State} (hf : s.unit.fsm = .accepting) (h : exec .finalize s = .next t) :
    t.unit.h = (padAndCompress s.unit).h := by
  rw [exec_finalize_of_accepting hf] at h
  cases h; simp

/-- Settles O20: the number of compressions is the number of blocks that `p + 9 + zeroFill p` bytes make. -/
theorem finalizeCompressesOnceOrTwice : Obligations.FinalizeCompressesOnceOrTwice := by
  intro s t hf hexec
  have hp := s.unit.bufLen.isLt
  rw [exec_finalize_h hf hexec, compressionCount_eq, paddingBytes_length]
  refine ⟨fun hle => ⟨?_, padAndCompress_h_of_le hle⟩, fun hgt => ⟨?_, padAndCompress_h_of_gt hgt⟩⟩
  · rw [zeroFill_of_le _ hle]; omega
  · rw [zeroFill_of_gt _ hgt hp]; omega

/-! ## The digest of a whole message (R84, R149) -/

theorem padMessage_length_mod (msg : List Byte) : (padMessage msg).length % 64 = 0 := by
  rw [padMessage, List.length_append, add_paddingBytes_length_mod]

theorem padMessage_length_ge (msg : List Byte) : 64 ≤ (padMessage msg).length := by
  rw [padMessage, List.length_append, paddingBytes_length]
  unfold zeroFill; omega

/-- From an empty buffer, a message and FINALIZE's padding compress to the blocks of `pad(msg)`. -/
theorem padAndCompress_putAll_h {u : StreamingUnit} (msg : List Byte) (hn : u.bufLen = 0#6)
    (hl : u.len = BitVec.ofNat 64 msg.length) :
    (padAndCompress (putAll u msg)).h = compressAll u.h (wholeBlocks (padMessage msg)) := by
  have hpad : paddingBytes (putAll u msg).bufLen.toNat (lengthField (putAll u msg).len) =
      paddingBytes msg.length (BitVec.ofNat 64 (8 * msg.length)) := by
    rw [putAll_bufLen, paddingBytes_mod, putAll_len, hl, lengthField_ofNat, hn]; simp
  rw [padAndCompress_eq_putAll, hpad, ← putAll_append, putAll_h, pendingBytes_of_empty u hn]
  rfl

/-- DIGEST's expansion run from any state (R84): INIT empties the unit, the ABSORBs store the message, and
FINALIZE pads it. -/
theorem execAll_digestInstrs (msg : List Byte) (s : State) : ∃ u : StreamingUnit,
    u.h = digestWords msg ∧ u.bufLen = 0#6 ∧ u.len = BitVec.ofNat 64 msg.length ∧ u.fsm = .finalized ∧
    execAll (digestInstrs msg) s = .next { s with
      unit := u
      responses := s.responses ++ List.replicate (msg.length + 1) (.rsp .ok none) ++
        [.rsp .ok (some (packDigest u.h))] } := by
  refine ⟨(padAndCompress (putAll ((freshUnit s.unit).setLen (BitVec.ofNat 64 msg.length)) msg)).setFsm .finalized,
    padAndCompress_putAll_h msg rfl rfl, by simp, by simp, by simp, ?_⟩
  rw [digestInstrs, execAll_cons, exec_init_eq_freshUnit, andThen_next, execAll_append,
    execAll_updateInstrs_of_accepting msg (by simp), andThen_next, execAll_cons,
    exec_finalize_of_accepting (by simp), andThen_next, execAll]
  refine congrArg _ (State.eq_of_fields _ _ ?_ rfl rfl ?_ rfl rfl)
  · simp
  · simp [List.replicate_succ]

theorem digestInstrs_length (msg : List Byte) : (digestInstrs msg).length = msg.length + 2 := by
  simp [digestInstrs, updateInstrs]

theorem issueAll_map_encode (is : List Instr) (s : State) : issueAll (is.map encode) s = execAll is s := by
  induction is generalizing s with
  | nil => rfl
  | cons i is ih =>
    rw [List.map_cons, issueAll_cons, execAll_cons, issue_of_instr (decode_encode i), funext ih]

/-- Encoded instructions issued one at a time run as the instructions do (R57, R76). -/
theorem run_of_encoded (is : List Instr) {s : State} {rest : List HostEvent} (hr : s.resetDone = true)
    (hp : s.pending = (is.map fun i => .operation (encode i)) ++ rest) :
    Host.Core.run core is.length s = execAll is (s.setPending rest) := by
  have hissue := runIsCompositionInIssueOrder (is.map encode) s rest hr (by rw [hp, List.map_map]; rfl)
  rw [List.length_map, issueAll_map_encode] at hissue
  exact hissue

/-- Settles O28: the run is that of DIGEST's three parts, and its padding is the closed form's. -/
theorem digestHasTheClosedForm : Obligations.DigestHasTheClosedForm := by
  intro msg s rest hr hp
  obtain ⟨u, hh, hn, hl, hf, hexec⟩ := execAll_digestInstrs msg (s.setPending rest)
  have hrun := (run_of_encoded _ hr hp).trans hexec
  rw [digestInstrs_length] at hrun
  exact ⟨padMessage_length_mod msg, padMessage_length_ge msg, _, hrun, hh, rfl, hf, hn, hl, rfl, hr, rfl, rfl⟩

end Sys2Proof.Machine
end

section
/-! PROOFS of the statements about exceptions (60_exceptions.md): COMPRESS and FSM (R183), completion (R184),
status codes (R180), the idle step (R193), where a step stops (R184, R212) and the independence of units
(R191), with the laws they rest on. -/

namespace Sys2Proof.Machine

/-! ## COMPRESS and status codes (R183, R180) -/

/-- Settles O14: the `cv_out` of `exec_compress` is a function of the operands alone. -/
theorem compressIgnoresTheStreamingUnit : Obligations.CompressIgnoresTheStreamingUnit := fun cv blk =>
  ⟨packCv (compress cv blk), exec_compress cv blk⟩

theorem readStatus_code (st : Status) : readStatus st.code = .ok st := by
  cases st with
  | ok | misuse | illegal => rfl

/-- Settles O32: the codes 0, 1 and 2 are told apart, and 3 is none of them. -/
theorem statusCodesReadBack : Obligations.StatusCodesReadBack := ⟨readStatus_code, rfl⟩

/-! ## What every instruction answers and leaves (R184, R56) -/

@[simp] theorem reportError_draws (s : State) (st : Status) : (reportError s st).draws = s.draws := (rfl)
@[simp] theorem reportError_unitNo (s : State) (st : Status) : (reportError s st).unitNo = s.unitNo := (rfl)
@[simp] theorem reportError_responses (s : State) (st : Status) :
    (reportError s st).responses = s.responses ++ [.rsp st none] := (rfl)

section
variable {i : Instr} {s t : State} (h : exec i s = .next t)
include h

theorem exec_draws : t.draws = s.draws := by
  cases execStep_of_exec h with
  | _ => simp

theorem exec_unitNo : t.unitNo = s.unitNo := by
  cases execStep_of_exec h with
  | _ => simp

theorem exec_responses : ∃ r, t.responses = s.responses ++ [r] := by
  cases execStep_of_exec h with
  | init | absorb | finalize => exact ⟨_, respondOk_responses _ _⟩
  | misuse => exact ⟨_, reportError_responses _ _⟩
  | compress => exact ⟨_, State.addResponse_responses _ _⟩

end

/-- Settles O33: `exec` goes on from every state, and every case of `ExecStep` adds one response. -/
theorem everyInstructionCompletes : Obligations.EveryInstructionCompletes := by
  intro i s
  obtain ⟨t, ht⟩ := exec_completes i s
  obtain ⟨r, hresp⟩ := exec_responses ht
  exact ⟨t, r, ht, hresp, exec_pending ht, exec_resetDone ht, exec_draws ht, exec_unitNo ht⟩

/-! ## Where a step stops (R193, R184, R212) -/

theorem step_of_idle {s : State} (hp : s.pending = []) : step s = .next s := by
  simp only [step, runNext, hp]

/-- Settles O35: the idle branch of `runNext`. -/
theorem idleUnitHoldsItsState : Obligations.IdleUnitHoldsItsState := fun _ => step_of_idle

theorem step_of_event {s : State} {e : HostEvent} {rest : List HostEvent} (hp : s.pending = e :: rest) :
    step s = runEvent e (s.setPending rest) := by
  simp only [step, runNext, hp]

theorem issue_completes (x : Transaction) (s : State) : ∃ t, issue x s = .next t := by
  obtain ⟨t, -, -, hissue⟩ := issue_setPending x s
  exact ⟨_, hissue s.pending⟩

/-- The unit awaits its first reset and the host issues an operation, whether or not a reset falls during it
(R212, U3; log 5). -/
def State.OperationBeforeReset (s : State) : Prop :=
  s.resetDone = false ∧ ∃ x rest, s.pending = .operation x :: rest ∨ s.pending = .resetDuring x :: rest

theorem step_of_operationBeforeReset {s : State} (h : s.OperationBeforeReset) :
    step s = .refused .operationBeforeReset := by
  obtain ⟨hr, x, rest, hp | hp⟩ := h
  · simp [step_of_event hp, runEvent, hr]
  · simp [step_of_event hp, runEvent, hr]

/-- Of the four host events only the two that begin an operation ask whether reset has been applied. -/
theorem step_completes {s : State} (h : ¬ s.OperationBeforeReset) : ∃ t, step s = .next t := by
  cases hp : s.pending with
  | nil => exact ⟨s, step_of_idle hp⟩
  | cons e rest =>
    have hreset (x : Transaction) (he : e = .operation x ∨ e = .resetDuring x) : s.resetDone = true := by
      by_contra hr
      exact h ⟨Bool.eq_false_of_not_eq_true hr, x, rest, by simpa [hp] using he⟩
    rw [step_of_event hp]
    cases e with
    | reset | powerOn => exact ⟨_, rfl⟩
    | operation x => simpa [runEvent, hreset x (.inl rfl)] using issue_completes x (s.setPending rest)
    | resetDuring x => simp [runEvent, hreset x (.inr rfl)]

/-- Settles O36: a step is refused in a state of `OperationBeforeReset` and goes on in every other. -/
theorem stepStopsOnlyBeforeReset : Obligations.StepStopsOnlyBeforeReset := by
  intro s
  change (∀ r, step s ≠ .fault r) ∧ ∀ r, step s = .refused r ↔ r = .operationBeforeReset ∧ s.OperationBeforeReset
  by_cases h : s.OperationBeforeReset
  · simp [step_of_operationBeforeReset h, h, eq_comm]
  · obtain ⟨t, ht⟩ := step_completes h
    simp [ht, h]

/-! ## Several units (R191) -/

namespace Platform

/-- A step of a unit that goes on is that unit's own step, put back in its place. -/
theorem stepUnit_eq_next_iff {p q : Platform} {u : Nat} : p.stepUnit u = .next q ↔
    ∃ s t, p.units[u]? = some s ∧ step s = .next t ∧ q = ⟨p.units.set u t⟩ := by
  unfold stepUnit
  cases p.units[u]? with
  | none => simp
  | some s =>
    cases hs : step s with
    | next t => simp [hs, eq_comm]
    | fault r | refused r => simp [hs]

theorem run_pair_eq_next_iff {p q : Platform} {u v : Nat} : p.run [u, v] = .next q ↔
    ∃ p', p.stepUnit u = .next p' ∧ p'.stepUnit v = .next q := by
  simp only [run]
  cases p.stepUnit u with
  | next p' => cases hv : p'.stepUnit v <;> simp [hv]
  | fault r | refused r => simp

theorem stepUnit_getElem?_of_ne {p q : Platform} {u v : Nat} (h : p.stepUnit u = .next q) (hne : u ≠ v) :
    q.units[v]? = p.units[v]? := by
  obtain ⟨s, t, -, -, rfl⟩ := stepUnit_eq_next_iff.mp h
  exact List.getElem?_set_ne hne

/-- Each of two units is found by the other's step as it was, and they are put back in different places. -/
theorem run_pair_comm {p q : Platform} {u v : Nat} (hne : u ≠ v) (h : p.run [u, v] = .next q) :
    p.run [v, u] = .next q := by
  obtain ⟨p', hpu, hpv⟩ := run_pair_eq_next_iff.mp h
  have hframe := stepUnit_getElem?_of_ne hpu hne
  obtain ⟨s, s', hs, hstep, rfl⟩ := stepUnit_eq_next_iff.mp hpu
  obtain ⟨t, t', ht, htstep, rfl⟩ := stepUnit_eq_next_iff.mp hpv
  have hpv' : p.stepUnit v = .next ⟨p.units.set v t'⟩ := stepUnit_eq_next_iff.mpr ⟨t, t', hframe ▸ ht, htstep, rfl⟩
  have hs' := (stepUnit_getElem?_of_ne hpv' hne.symm).trans hs
  refine run_pair_eq_next_iff.mpr ⟨_, hpv', stepUnit_eq_next_iff.mpr ⟨s, s', hs', hstep, ?_⟩⟩
  rw [List.set_comm _ _ hne]

end Platform

/-- Settles O46: a step reads and writes the state of its own unit only. -/
theorem unitsAreIndependent : Obligations.UnitsAreIndependent :=
  ⟨fun _ _ _ _ => Platform.stepUnit_getElem?_of_ne, fun _ _ _ _ => Platform.run_pair_comm⟩

end Sys2Proof.Machine
end

section
/-! PROOFS of the statements about reset and power-on (70_reset_and_hazards.md): reset between operations
(R210) and during one (R213), the first operation after power-on (R212, R214) and the end of every run
(R220), with the laws they rest on. -/

namespace Sys2Proof.Machine

/-! ## The initial unit (R141, R210) -/

/-- The values that R210 and R141 share: those of every element but BUF, which is left open. -/
structure StreamingUnit.Initial (u : StreamingUnit) : Prop where
  h : u.h = iv
  bufLen : u.bufLen = 0#6
  len : u.len = 0#64
  fsm : u.fsm = .accepting

theorem reset_initial : State.reset.unit.Initial := ⟨rfl, rfl, rfl, rfl⟩

theorem freshUnit_initial (u : StreamingUnit) : (freshUnit u).Initial := ⟨rfl, rfl, rfl, rfl⟩

theorem applyReset_initial (s : State) : (applyReset s).unit.Initial := ⟨rfl, rfl, rfl, rfl⟩

theorem StreamingUnit.Initial.setBuf_eq {u v : StreamingUnit} (hu : u.Initial) (hv : v.Initial) :
    u.setBuf v.buf = v :=
  StreamingUnit.eq_of_fields _ _ (hu.h.trans hv.h.symm) rfl (hu.bufLen.trans hv.bufLen.symm)
    (hu.len.trans hv.len.symm) (hu.fsm.trans hv.fsm.symm)

/-- INIT finds nothing to change. -/
theorem StreamingUnit.Initial.freshUnit_eq {u : StreamingUnit} (hu : u.Initial) : freshUnit u = u :=
  (freshUnit_initial u).setBuf_eq hu

/-! ## Reset between operations and during one (R210, R213) -/

/-- A step that is a reset, in any state: the initial values, no response, and the events after it to come. -/
theorem step_of_reset {s : State} {rest : List HostEvent} (hp : s.pending = .reset :: rest) :
    ∃ t, step s = .next t ∧ t.unit.Initial ∧ t.responses = s.responses ∧ t.pending = rest ∧ t.resetDone = true :=
  ⟨_, step_of_event hp, applyReset_initial _, rfl, rfl, rfl⟩

/-- Settles O37: reset and INIT both leave an initial unit, and two of those differ in BUF alone. -/
theorem resetGivesTheInitState : Obligations.ResetGivesTheInitState := by
  refine ⟨fun s rest hp => ?_, reset_initial.h, reset_initial.bufLen, reset_initial.len, reset_initial.fsm⟩
  obtain ⟨t, hstep, hu, hresp, hpend, hdone⟩ := step_of_reset hp
  refine ⟨t, hstep, hu.h, hu.bufLen, hu.len, hu.fsm, hresp, hpend, hdone, fun t' ht' => ?_⟩
  rw [exec_init_eq_freshUnit] at ht'
  cases ht'
  exact hu.setBuf_eq (freshUnit_initial s.unit)

theorem step_of_resetDuring {s : State} {x : Transaction} {rest : List HostEvent} (hr : s.resetDone = true)
    (hp : s.pending = .resetDuring x :: rest) : step s = step (s.setPending (.reset :: rest)) := by
  rw [step_of_event hp, step_of_event rfl]
  exact if_pos hr

/-- Settles O38: on a unit that has been reset, a reset during an operation steps as a reset alone. -/
theorem resetAbandonsTheOperation : Obligations.ResetAbandonsTheOperation := by
  intro s x rest hr hp
  have hsame := step_of_resetDuring hr hp
  obtain ⟨t, hstep, hu, hresp, hpend, -⟩ := step_of_reset (s := s.setPending (.reset :: rest)) rfl
  exact ⟨hsame, t, hsame.trans hstep, hu.h, hu.bufLen, hu.len, hu.fsm, hresp, hpend⟩

/-! ## The first operation after reset (R212, R214) -/

section
variable {s t : State} (hu : s.unit.Initial)
include hu

theorem exec_absorb_of_initial {d : Byte} (h : exec (.absorb d) s = .next t) :
    t.responses = s.responses ++ [.rsp .ok none] ∧ t.unit.h = iv ∧ t.unit.len = 1#64 ∧
      pendingBytes t.unit = [d] ∧ t.unit.fsm = .accepting := by
  rw [exec_absorb_of_accepting hu.fsm] at h
  cases h
  have hroom : (s.unit.setLen (s.unit.len + 1#64)).bufLen ≠ 63#6 := by simp [hu.bufLen]
  refine ⟨respondOk_responses _ _, (put_h_of_room _ d hroom).trans hu.h, ?_, ?_, (put_fsm _ d).trans hu.fsm⟩
  · simp [hu.len]
  · exact (pendingBytes_put_of_room _ d hroom).trans (by simp [pendingBytes_of_empty _ hu.bufLen])

/-- The unit holds the empty message, so that FINALIZE pads and compresses `pad([])` from IV. -/
theorem exec_finalize_of_initial (h : exec .finalize s = .next t) :
    t.responses = s.responses ++ [.rsp .ok (some (digestOf []))] ∧ t.unit.h = digestWords [] ∧
      t.unit.len = 0#64 ∧ t.unit.bufLen = 0#6 ∧ t.unit.fsm = .finalized := by
  have hh : (padAndCompress s.unit).h = digestWords [] := by
    rw [← putAll_nil s.unit, padAndCompress_putAll_h [] hu.bufLen hu.len, hu.h, digestWords]
  rw [exec_finalize_of_accepting hu.fsm, hh, ← digestOf] at h
  cases h
  exact ⟨respondOk_responses _ _, hh, (padAndCompress_len _).trans hu.len, padAndCompress_bufLen _, rfl⟩

theorem exec_init_of_initial (h : exec .init s = .next t) :
    t.responses = s.responses ++ [.rsp .ok none] ∧ t.unit = s.unit := by
  rw [exec_init_eq_freshUnit, hu.freshUnit_eq] at h
  cases h
  exact ⟨respondOk_responses _ _, rfl⟩

end

theorem exec_compress_answer {cv : Quad} {blk : Block} {s t : State} (h : exec (.compress cv blk) s = .next t) :
    t.responses = s.responses ++ [.cvOut (packCv (compress cv blk))] ∧ t.unit = s.unit := by
  rw [exec_compress] at h
  cases h
  exact ⟨State.addResponse_responses _ _, rfl⟩

/-- A step that is a power-on returns no response and leaves a reset awaited. -/
theorem step_of_powerOn {s : State} {rest : List HostEvent} (hp : s.pending = .powerOn :: rest) :
    ∃ t, step s = .next t ∧ t.responses = s.responses ∧ t.pending = rest ∧ t.resetDone = false :=
  ⟨_, step_of_event hp, rfl, rfl, rfl⟩

/-- Settles O39: power-on leaves reset awaited; reset then leaves an initial unit, on which each instruction
has its own law. -/
theorem operationsWaitForTheFirstReset : Obligations.OperationsWaitForTheFirstReset := by
  intro s rest hp
  obtain ⟨t, hpower, hresp, hpend, hawait⟩ := step_of_powerOn hp
  refine ⟨t, hpower, hresp, hpend, fun x r hx => ?_, fun i r hi => ?_⟩
  · exact step_of_operationBeforeReset ⟨hawait, x, r, .inl (hpend.trans hx)⟩
  · obtain ⟨t1, hreset, hu1, hresp1, hpend1, hdone1⟩ := step_of_reset (hpend.trans hi)
    have hu2 : (t1.setPending r).unit.Initial := hu1
    obtain ⟨t2, hexec⟩ := exec_completes i (t1.setPending r)
    have hrun : step t1 = .next t2 :=
      (step_of_operation hdone1 hpend1).trans ((issue_of_instr (decode_encode i) _).trans hexec)
    have hresp2 : (t1.setPending r).responses = s.responses := hresp1.trans hresp
    rw [← hresp2]
    refine ⟨t1, t2, hreset, hrun, exec_pending hexec, ?absorb, ?finalize, ?compress, ?init⟩
    case absorb =>
      rintro d rfl
      exact exec_absorb_of_initial hu2 hexec
    case finalize =>
      rintro rfl
      exact exec_finalize_of_initial hu2 hexec
    case compress =>
      rintro cv blk rfl
      exact exec_compress_answer hexec
    case init =>
      rintro rfl
      exact exec_init_of_initial hu2 hexec

/-! ## Every run ends (R220, R184) -/

/-- Whatever transaction is issued, one response is added, and the events to come stand. -/
theorem issue_answers (x : Transaction) (s : State) : ∃ t r, issue x s = .next t ∧
    t.responses = s.responses ++ [r] ∧ t.pending = s.pending ∧ t.resetDone = s.resetDone := by
  cases hd : decode x with
  | instr i =>
    obtain ⟨t, ht⟩ := exec_completes i s
    obtain ⟨r, hresp⟩ := exec_responses ht
    exact ⟨t, r, (issue_of_instr hd s).trans ht, hresp, exec_pending ht, exec_resetDone ht⟩
  | illegal why =>
    exact ⟨_, _, issue_of_illegal hd s, reportError_responses s .illegal, rfl, rfl⟩

theorem issueAll_answers (xs : List Transaction) (s : State) : ∃ t, issueAll xs s = .next t ∧
    t.responses.length = s.responses.length + xs.length ∧ t.pending = s.pending ∧ t.resetDone = s.resetDone := by
  induction xs generalizing s with
  | nil => exact ⟨s, rfl, rfl, rfl, rfl⟩
  | cons x xs ih =>
    obtain ⟨s', r, hissue, hresp, hp, hr⟩ := issue_answers x s
    obtain ⟨t, hothers, hlen, hp', hr'⟩ := ih s'
    refine ⟨t, ?_, ?_, hp'.trans hp, hr'.trans hr⟩
    · rw [issueAll_cons, hissue, andThen_next, hothers]
    · rw [hlen, hresp]; simp; omega

/-- Settles O41: a run from reset issues its transactions in order, and each answers once. -/
theorem everyRunAnswersEachOperation : Obligations.EveryRunAnswersEachOperation := by
  intro xs
  obtain ⟨t, hissue, hlen, hp, hr⟩ := issueAll_answers xs ((startOfRun xs).setPending [])
  have hrun : runOf xs = issueAll xs ((startOfRun xs).setPending []) :=
    runIsCompositionInIssueOrder xs (startOfRun xs) [] rfl (List.append_nil _).symm
  exact ⟨t, hrun.trans hissue, hlen.trans (Nat.zero_add _), hp, hr⟩

end Sys2Proof.Machine
end
